-- ==== Sys2Proof/Word.lean ====
section
/-! DEFINITION. The word types of the unit and the command as the Host issues it: the 16-bit command
word and the operand record (spec/30_encoding.md R60 to R62, spec/00_scope.md R7). -/

namespace Sys2Proof

/-- A command word is 16 bits wide (R60). -/
abbrev Word := BitVec 16

/-- An octet of a byte source, an output or a string (R62: 0 to 255). -/
abbrev Octet := BitVec 8

/-- A bit sequence: the head is first in time, first appended and first read (R7). -/
abbrev Bits := List Bool

/-- The operand record of a command (R62). A field a command does not read is ignored. -/
structure Operands where
  lb : Int := 0
  ub : Int := 0
  v : Int := 0
  b : Bool := false
  bits : Bits := []
  octets : List Octet := []
  n : Nat := 0
  bytes : List Octet := []
  deriving DecidableEq, Repr

/-- A command is the pair of a command word and an operand record (R60). -/
structure Command where
  cw : Word
  op : Operands := {}
  deriving DecidableEq, Repr

end Sys2Proof
end

