-- ==== Sys2Proof/Syntax.lean ====
section
/-! DEFINITION. The commands of the unit, one constructor for each row of spec/opcode_table.json. A
constructor holds what its command reads and nothing else: the flags E, X and N of its word (R61),
each bound with its presence flag L or U as an `Option` (R61: `None` when the flag is 0), and the
operand fields its rule names (R62). -/

namespace Sys2Proof

/-- A legal command (R63, R64). -/
inductive Instr where
  /-- NEW_ENC (R110). -/
  | newEnc
  /-- NEW_DEC (R111). -/
  | newDec (bytes : List Octet)
  /-- FINISH (R112). -/
  | finish
  /-- RELEASE (R113). -/
  | release
  /-- APPEND_BITS (R101). -/
  | appendBits (bits : Bits)
  /-- ALIGN_E (R103). -/
  | alignE
  /-- READ_BIT (R105). -/
  | readBit
  /-- READ_BITS (R107). -/
  | readBits (n : Nat)
  /-- ALIGN_D (R108). -/
  | alignD
  /-- ENC_BOOL (R170). -/
  | encBool (b : Bool)
  /-- DEC_BOOL (R171). -/
  | decBool
  /-- ENC_INT (R126). -/
  | encInt (e x : Bool) (lb ub : Option Int) (v : Int)
  /-- DEC_INT (R127). -/
  | decInt (x : Bool) (lb ub : Option Int)
  /-- ENC_ENUM (R172): both bounds are required (R64). -/
  | encEnum (e x : Bool) (lb ub v : Int)
  /-- DEC_ENUM (R173). -/
  | decEnum (x : Bool) (lb ub : Int)
  /-- ENC_LEN (R156). -/
  | encLen (n : Bool) (lb ub : Option Int) (v : Int)
  /-- DEC_LEN (R157). -/
  | decLen (n : Bool) (lb ub : Option Int)
  /-- ENC_BITSTR (R180). -/
  | encBitStr (e x : Bool) (lb ub : Option Int) (bits : Bits)
  /-- DEC_BITSTR (R181). -/
  | decBitStr (x : Bool) (lb ub : Option Int)
  /-- ENC_OCTSTR (R184). -/
  | encOctStr (e x : Bool) (lb ub : Option Int) (octets : List Octet)
  /-- DEC_OCTSTR (R185). -/
  | decOctStr (x : Bool) (lb ub : Option Int)
  /-- ENC_VISSTR (R190). -/
  | encVisStr (e x : Bool) (lb ub : Option Int) (octets : List Octet)
  /-- DEC_VISSTR (R191). -/
  | decVisStr (x : Bool) (lb ub : Option Int)
  /-- ENC_PRTSTR (R192). -/
  | encPrtStr (e x : Bool) (lb ub : Option Int) (octets : List Octet)
  /-- DEC_PRTSTR (R193). -/
  | decPrtStr (x : Bool) (lb ub : Option Int)
  /-- ENC_UTF8STR (R194). -/
  | encUtf8Str (e x : Bool) (lb ub : Option Int) (octets : List Octet)
  /-- DEC_UTF8STR (R195). -/
  | decUtf8Str (x : Bool) (lb ub : Option Int)
  /-- ENC_CHOICE (R210): both bounds are required (R64). -/
  | encChoice (e x : Bool) (lb ub v : Int)
  /-- DEC_CHOICE (R211). -/
  | decChoice (x : Bool) (lb ub : Int)
  /-- ENC_SEQHDR (R212). -/
  | encSeqHdr (e x : Bool) (bits : Bits)
  /-- DEC_SEQHDR (R213). -/
  | decSeqHdr (x : Bool) (n : Nat)
  deriving DecidableEq, Repr

end Sys2Proof
end

