-- ==== Sys2Proof/WellFormed.lean ====
section
/-! DEFINITION. Operand legality (spec/30_encoding.md R67): the two conditions on operand values that
the operand types do not already exclude. A command that breaks one is a legal word, and the unit
refuses it with BadOperand. -/

namespace Sys2Proof

/-- A lower bound on a length is present only with a value that is not negative (R67). -/
def lengthBoundOk : Option Int → Bool
  | some l => decide (0 ≤ l)
  | none => true

/-- The operands lie in their domains (R67). -/
def Instr.wellFormed : Instr → Bool
  | .encLen _ lb _ v => lengthBoundOk lb && decide (0 ≤ v)
  | .decLen _ lb _ => lengthBoundOk lb
  | .encBitStr _ _ lb _ _ => lengthBoundOk lb
  | .decBitStr _ lb _ => lengthBoundOk lb
  | .encOctStr _ _ lb _ _ => lengthBoundOk lb
  | .decOctStr _ lb _ => lengthBoundOk lb
  | .encVisStr _ _ lb _ _ => lengthBoundOk lb
  | .decVisStr _ lb _ => lengthBoundOk lb
  | .encPrtStr _ _ lb _ _ => lengthBoundOk lb
  | .decPrtStr _ lb _ => lengthBoundOk lb
  | .encUtf8Str _ _ lb _ _ => lengthBoundOk lb
  | .decUtf8Str _ lb _ => lengthBoundOk lb
  | .newEnc | .newDec _ | .finish | .release | .appendBits _ | .alignE | .readBit | .readBits _
  | .alignD | .encBool _ | .decBool | .encInt _ _ _ _ _ | .decInt _ _ _ | .encEnum _ _ _ _ _
  | .decEnum _ _ _ | .encChoice _ _ _ _ _ | .decChoice _ _ _ | .encSeqHdr _ _ _
  | .decSeqHdr _ _ => true

end Sys2Proof
end

