-- ==== Sys2Proof/Decode.lean ====
section
/-! DEFINITION. Decoding a command (spec/30_encoding.md R60 to R65): the fields of the command word,
the opcode map, the flag legality table, and the decoder, which is total and rejects an illegal word
by the ground it breaks. After it the encoder, from the same tables, and the host's view of a word. -/

namespace Sys2Proof

/-- The 31 opcodes (R63). -/
inductive Opc where
  | newEnc | newDec | finish | release | appendBits | alignE
  | readBit | readBits | alignD | encBool | decBool | encInt
  | decInt | encEnum | decEnum | encLen | decLen | encBitStr
  | decBitStr | encOctStr | decOctStr | encVisStr | decVisStr | encPrtStr
  | decPrtStr | encUtf8Str | decUtf8Str | encChoice | decChoice | encSeqHdr
  | decSeqHdr
  deriving DecidableEq, Repr

/-- The opcode's number, bits 15 to 8 of the command word (R63). -/
def Opc.code : Opc → BitVec 8
  | .newEnc => 0x01#8
  | .newDec => 0x02#8
  | .finish => 0x03#8
  | .release => 0x04#8
  | .appendBits => 0x08#8
  | .alignE => 0x09#8
  | .readBit => 0x0A#8
  | .readBits => 0x0B#8
  | .alignD => 0x0C#8
  | .encBool => 0x10#8
  | .decBool => 0x11#8
  | .encInt => 0x12#8
  | .decInt => 0x13#8
  | .encEnum => 0x14#8
  | .decEnum => 0x15#8
  | .encLen => 0x16#8
  | .decLen => 0x17#8
  | .encBitStr => 0x18#8
  | .decBitStr => 0x19#8
  | .encOctStr => 0x1A#8
  | .decOctStr => 0x1B#8
  | .encVisStr => 0x1C#8
  | .decVisStr => 0x1D#8
  | .encPrtStr => 0x1E#8
  | .decPrtStr => 0x1F#8
  | .encUtf8Str => 0x20#8
  | .decUtf8Str => 0x21#8
  | .encChoice => 0x22#8
  | .decChoice => 0x23#8
  | .encSeqHdr => 0x24#8
  | .decSeqHdr => 0x25#8

/-- The opcode's mnemonic (R63). -/
def Opc.mnemonic : Opc → String
  | .newEnc => "NEW_ENC"
  | .newDec => "NEW_DEC"
  | .finish => "FINISH"
  | .release => "RELEASE"
  | .appendBits => "APPEND_BITS"
  | .alignE => "ALIGN_E"
  | .readBit => "READ_BIT"
  | .readBits => "READ_BITS"
  | .alignD => "ALIGN_D"
  | .encBool => "ENC_BOOL"
  | .decBool => "DEC_BOOL"
  | .encInt => "ENC_INT"
  | .decInt => "DEC_INT"
  | .encEnum => "ENC_ENUM"
  | .decEnum => "DEC_ENUM"
  | .encLen => "ENC_LEN"
  | .decLen => "DEC_LEN"
  | .encBitStr => "ENC_BITSTR"
  | .decBitStr => "DEC_BITSTR"
  | .encOctStr => "ENC_OCTSTR"
  | .decOctStr => "DEC_OCTSTR"
  | .encVisStr => "ENC_VISSTR"
  | .decVisStr => "DEC_VISSTR"
  | .encPrtStr => "ENC_PRTSTR"
  | .decPrtStr => "DEC_PRTSTR"
  | .encUtf8Str => "ENC_UTF8STR"
  | .decUtf8Str => "DEC_UTF8STR"
  | .encChoice => "ENC_CHOICE"
  | .decChoice => "DEC_CHOICE"
  | .encSeqHdr => "ENC_SEQHDR"
  | .decSeqHdr => "DEC_SEQHDR"

/-- Every opcode, in the order of R63. -/
def Opc.all : List Opc :=
  [.newEnc, .newDec, .finish, .release, .appendBits, .alignE, .readBit, .readBits]
  ++ [.alignD, .encBool, .decBool, .encInt, .decInt, .encEnum, .decEnum, .encLen]
  ++ [.decLen, .encBitStr, .decBitStr, .encOctStr, .decOctStr, .encVisStr, .decVisStr, .encPrtStr]
  ++ [.decPrtStr, .encUtf8Str, .decUtf8Str, .encChoice, .decChoice, .encSeqHdr, .decSeqHdr]

/-- The opcode a byte stands for. Every other byte is reserved (R63, R65). -/
def opcOf (b : BitVec 8) : Option Opc := Opc.all.find? fun o => o.code == b

/-- The five flag bits of a command word (R61). -/
structure Flags where
  n : Bool := false
  e : Bool := false
  x : Bool := false
  u : Bool := false
  l : Bool := false
  deriving DecidableEq, Repr

/-- Bits 15 to 8 of the command word (R61). -/
def opcField (cw : Word) : BitVec 8 := cw.extractLsb' 8 8

/-- Bits 7 to 5 of the command word, which must be 0 (R61). -/
def rsvField (cw : Word) : BitVec 3 := cw.extractLsb' 5 3

/-- Bits 4 to 0 of the command word (R61). -/
def flagsField (cw : Word) : Flags :=
  { n := cw.getLsbD 4, e := cw.getLsbD 3, x := cw.getLsbD 2, u := cw.getLsbD 1, l := cw.getLsbD 0 }

/-- The three kinds of flag legality (R64). -/
inductive FlagRule where
  | free | mustBe1 | mustBe0
  deriving DecidableEq, Repr

/-- Whether a flag's value keeps its rule (R64). -/
def FlagRule.admits : FlagRule → Bool → Bool
  | .free, _ => true
  | .mustBe1, b => b
  | .mustBe0, b => !b

/-- One row of the flag legality table (R64), in its column order. -/
structure FlagRow where
  n : FlagRule
  e : FlagRule
  x : FlagRule
  u : FlagRule
  l : FlagRule
  deriving DecidableEq, Repr

/-- Whether the flags keep every rule of the row (R64). -/
def FlagRow.admits (r : FlagRow) (f : Flags) : Bool :=
  r.n.admits f.n && r.e.admits f.e && r.x.admits f.x && r.u.admits f.u && r.l.admits f.l

/-- The flag legality table (R64). -/
def Opc.flagRow : Opc → FlagRow
  | .newEnc | .newDec | .finish | .release | .appendBits | .alignE | .readBit | .readBits | .alignD
  | .encBool | .decBool => ⟨.mustBe0, .mustBe0, .mustBe0, .mustBe0, .mustBe0⟩
  | .encInt => ⟨.mustBe0, .free, .free, .free, .free⟩
  | .decInt => ⟨.mustBe0, .mustBe0, .free, .free, .free⟩
  | .encEnum | .encChoice => ⟨.mustBe0, .free, .free, .mustBe1, .mustBe1⟩
  | .decEnum | .decChoice => ⟨.mustBe0, .mustBe0, .free, .mustBe1, .mustBe1⟩
  | .encLen | .decLen => ⟨.free, .mustBe0, .mustBe0, .free, .free⟩
  | .encBitStr | .encOctStr | .encVisStr | .encPrtStr | .encUtf8Str =>
    ⟨.mustBe0, .free, .free, .free, .free⟩
  | .decBitStr | .decOctStr | .decVisStr | .decPrtStr | .decUtf8Str =>
    ⟨.mustBe0, .mustBe0, .free, .free, .free⟩
  | .encSeqHdr => ⟨.mustBe0, .free, .free, .mustBe0, .mustBe0⟩
  | .decSeqHdr => ⟨.mustBe0, .mustBe0, .free, .mustBe0, .mustBe0⟩

/-- A bound as its presence flag gives it (R61): `Some(op.lb)` when the flag is 1, `None` when 0. -/
def boundOf (present : Bool) (value : Int) : Option Int := if present then some value else none

/-- The command an opcode stands for under its flags and operands: the flags of R61 and the operand
fields of R62 that the opcode reads. -/
def Opc.instr (o : Opc) (f : Flags) (op : Operands) : Instr :=
  match o with
  | .newEnc => .newEnc
  | .newDec => .newDec op.bytes
  | .finish => .finish
  | .release => .release
  | .appendBits => .appendBits op.bits
  | .alignE => .alignE
  | .readBit => .readBit
  | .readBits => .readBits op.n
  | .alignD => .alignD
  | .encBool => .encBool op.b
  | .decBool => .decBool
  | .encInt => .encInt f.e f.x (boundOf f.l op.lb) (boundOf f.u op.ub) op.v
  | .decInt => .decInt f.x (boundOf f.l op.lb) (boundOf f.u op.ub)
  | .encEnum => .encEnum f.e f.x op.lb op.ub op.v
  | .decEnum => .decEnum f.x op.lb op.ub
  | .encLen => .encLen f.n (boundOf f.l op.lb) (boundOf f.u op.ub) op.v
  | .decLen => .decLen f.n (boundOf f.l op.lb) (boundOf f.u op.ub)
  | .encBitStr => .encBitStr f.e f.x (boundOf f.l op.lb) (boundOf f.u op.ub) op.bits
  | .decBitStr => .decBitStr f.x (boundOf f.l op.lb) (boundOf f.u op.ub)
  | .encOctStr => .encOctStr f.e f.x (boundOf f.l op.lb) (boundOf f.u op.ub) op.octets
  | .decOctStr => .decOctStr f.x (boundOf f.l op.lb) (boundOf f.u op.ub)
  | .encVisStr => .encVisStr f.e f.x (boundOf f.l op.lb) (boundOf f.u op.ub) op.octets
  | .decVisStr => .decVisStr f.x (boundOf f.l op.lb) (boundOf f.u op.ub)
  | .encPrtStr => .encPrtStr f.e f.x (boundOf f.l op.lb) (boundOf f.u op.ub) op.octets
  | .decPrtStr => .decPrtStr f.x (boundOf f.l op.lb) (boundOf f.u op.ub)
  | .encUtf8Str => .encUtf8Str f.e f.x (boundOf f.l op.lb) (boundOf f.u op.ub) op.octets
  | .decUtf8Str => .decUtf8Str f.x (boundOf f.l op.lb) (boundOf f.u op.ub)
  | .encChoice => .encChoice f.e f.x op.lb op.ub op.v
  | .decChoice => .decChoice f.x op.lb op.ub
  | .encSeqHdr => .encSeqHdr f.e f.x op.bits
  | .decSeqHdr => .decSeqHdr f.x op.n

/-- The grounds on which a command word is illegal (R65). -/
inductive IllegalWord where
  /-- OPC is not in R63. -/
  | reservedOpcode
  /-- RSV is not 0. -/
  | reservedBits
  /-- A flag breaks R64. -/
  | illegalFlags
  deriving DecidableEq, Repr

/-- The decoder (R61 to R65): total on every command, with an illegal word rejected by its ground. -/
def decode (c : Command) : Except IllegalWord Instr :=
  match opcOf (opcField c.cw) with
  | none => .error .reservedOpcode
  | some o =>
    if rsvField c.cw ≠ 0 then .error .reservedBits
    else if o.flagRow.admits (flagsField c.cw) then .ok (o.instr (flagsField c.cw) c.op)
    else .error .illegalFlags

/-- The command word of an opcode byte and its flags, RSV being 0:
`OPC << 8 | N<<4 | E<<3 | X<<2 | U<<1 | L` (R69). -/
def wordOf (opc : BitVec 8) (f : Flags) : Word :=
  (opc.setWidth 16 <<< 8) ||| ((BitVec.ofBool f.n).setWidth 16 <<< 4)
    ||| ((BitVec.ofBool f.e).setWidth 16 <<< 3) ||| ((BitVec.ofBool f.x).setWidth 16 <<< 2)
    ||| ((BitVec.ofBool f.u).setWidth 16 <<< 1) ||| (BitVec.ofBool f.l).setWidth 16

/-- The opcode of a command (R63). -/
def Instr.opc : Instr → Opc
  | .newEnc => .newEnc
  | .newDec _ => .newDec
  | .finish => .finish
  | .release => .release
  | .appendBits _ => .appendBits
  | .alignE => .alignE
  | .readBit => .readBit
  | .readBits _ => .readBits
  | .alignD => .alignD
  | .encBool _ => .encBool
  | .decBool => .decBool
  | .encInt _ _ _ _ _ => .encInt
  | .decInt _ _ _ => .decInt
  | .encEnum _ _ _ _ _ => .encEnum
  | .decEnum _ _ _ => .decEnum
  | .encLen _ _ _ _ => .encLen
  | .decLen _ _ _ => .decLen
  | .encBitStr _ _ _ _ _ => .encBitStr
  | .decBitStr _ _ _ => .decBitStr
  | .encOctStr _ _ _ _ _ => .encOctStr
  | .decOctStr _ _ _ => .decOctStr
  | .encVisStr _ _ _ _ _ => .encVisStr
  | .decVisStr _ _ _ => .decVisStr
  | .encPrtStr _ _ _ _ _ => .encPrtStr
  | .decPrtStr _ _ _ => .decPrtStr
  | .encUtf8Str _ _ _ _ _ => .encUtf8Str
  | .decUtf8Str _ _ _ => .decUtf8Str
  | .encChoice _ _ _ _ _ => .encChoice
  | .decChoice _ _ _ => .decChoice
  | .encSeqHdr _ _ _ => .encSeqHdr
  | .decSeqHdr _ _ => .decSeqHdr

/-- The flags of a command's word (R61, R64): L and U say that a bound is present. -/
def Instr.flags : Instr → Flags
  | .encInt e x lb ub _ => { e := e, x := x, u := ub.isSome, l := lb.isSome }
  | .decInt x lb ub => { x := x, u := ub.isSome, l := lb.isSome }
  | .encEnum e x _ _ _ => { e := e, x := x, u := true, l := true }
  | .decEnum x _ _ => { x := x, u := true, l := true }
  | .encLen n lb ub _ => { n := n, u := ub.isSome, l := lb.isSome }
  | .decLen n lb ub => { n := n, u := ub.isSome, l := lb.isSome }
  | .encBitStr e x lb ub _ => { e := e, x := x, u := ub.isSome, l := lb.isSome }
  | .decBitStr x lb ub => { x := x, u := ub.isSome, l := lb.isSome }
  | .encOctStr e x lb ub _ => { e := e, x := x, u := ub.isSome, l := lb.isSome }
  | .decOctStr x lb ub => { x := x, u := ub.isSome, l := lb.isSome }
  | .encVisStr e x lb ub _ => { e := e, x := x, u := ub.isSome, l := lb.isSome }
  | .decVisStr x lb ub => { x := x, u := ub.isSome, l := lb.isSome }
  | .encPrtStr e x lb ub _ => { e := e, x := x, u := ub.isSome, l := lb.isSome }
  | .decPrtStr x lb ub => { x := x, u := ub.isSome, l := lb.isSome }
  | .encUtf8Str e x lb ub _ => { e := e, x := x, u := ub.isSome, l := lb.isSome }
  | .decUtf8Str x lb ub => { x := x, u := ub.isSome, l := lb.isSome }
  | .encChoice e x _ _ _ => { e := e, x := x, u := true, l := true }
  | .decChoice x _ _ => { x := x, u := true, l := true }
  | .encSeqHdr e x _ => { e := e, x := x }
  | .decSeqHdr x _ => { x := x }
  | .newEnc | .newDec _ | .finish | .release | .appendBits _ | .alignE | .readBit | .readBits _
  | .alignD | .encBool _ | .decBool => {}

/-- The operand record of a command (R62). The fields it does not read are zero or empty. -/
def Instr.operands : Instr → Operands
  | .newDec bytes => { bytes := bytes }
  | .appendBits bits => { bits := bits }
  | .readBits n => { n := n }
  | .encBool b => { b := b }
  | .encInt _ _ lb ub v => { lb := lb.getD 0, ub := ub.getD 0, v := v }
  | .decInt _ lb ub => { lb := lb.getD 0, ub := ub.getD 0 }
  | .encEnum _ _ lb ub v => { lb := lb, ub := ub, v := v }
  | .decEnum _ lb ub => { lb := lb, ub := ub }
  | .encLen _ lb ub v => { lb := lb.getD 0, ub := ub.getD 0, v := v }
  | .decLen _ lb ub => { lb := lb.getD 0, ub := ub.getD 0 }
  | .encBitStr _ _ lb ub bits => { lb := lb.getD 0, ub := ub.getD 0, bits := bits }
  | .decBitStr _ lb ub => { lb := lb.getD 0, ub := ub.getD 0 }
  | .encOctStr _ _ lb ub octets => { lb := lb.getD 0, ub := ub.getD 0, octets := octets }
  | .decOctStr _ lb ub => { lb := lb.getD 0, ub := ub.getD 0 }
  | .encVisStr _ _ lb ub octets => { lb := lb.getD 0, ub := ub.getD 0, octets := octets }
  | .decVisStr _ lb ub => { lb := lb.getD 0, ub := ub.getD 0 }
  | .encPrtStr _ _ lb ub octets => { lb := lb.getD 0, ub := ub.getD 0, octets := octets }
  | .decPrtStr _ lb ub => { lb := lb.getD 0, ub := ub.getD 0 }
  | .encUtf8Str _ _ lb ub octets => { lb := lb.getD 0, ub := ub.getD 0, octets := octets }
  | .decUtf8Str _ lb ub => { lb := lb.getD 0, ub := ub.getD 0 }
  | .encChoice _ _ lb ub v => { lb := lb, ub := ub, v := v }
  | .decChoice _ lb ub => { lb := lb, ub := ub }
  | .encSeqHdr _ _ bits => { bits := bits }
  | .decSeqHdr _ n => { n := n }
  | .newEnc | .finish | .release | .alignE | .readBit | .alignD | .decBool => {}

/-- The encoder: the command word and operand record of a command (R60 to R64, R69). -/
def encode (i : Instr) : Command := { cw := wordOf i.opc.code i.flags, op := i.operands }

/-- The command whose word's bits are `w`, numbered as spec/opcode_table.json numbers them, with an
operand record of zeros. Every command word is 16 bits (R60), whatever `nbits` says. -/
def tableCommand (_nbits w : Nat) : Command := { cw := BitVec.ofNat 16 w }

/-- The command the decoder reads from a row of the opcode table, if its word is legal. -/
def decodeTableWord (nbits w : Nat) : Option Instr :=
  match decode (tableCommand nbits w) with
  | .ok i => some i
  | .error _ => none

end Sys2Proof
end

