-- ==== Sys2Proof/Config.lean ====
section
/-! DEFINITION. What an implementation fixes (the two OPEN parameters of spec/00_scope.md R6) and the
values the spec leaves unspecified, as constants without a body. -/

namespace Sys2Proof

/-- The values of the OPEN parameter CWN_LARGE_FORM (R6, 92 D11). -/
inductive LargeForm where
  /-- X691_LENGTH_PREFIXED: the octet count as a constrained whole number, then the octets. -/
  | x691LengthPrefixed
  /-- FIXED_RANGE_OCTETS: as many octets as the range needs. -/
  | fixedRangeOctets
  deriving DecidableEq, Repr

/-- The OPEN implementation parameters (R6, R30). The spec settles neither. -/
structure Params where
  /-- CWN_256_ALIGNED (92 D10). -/
  cwn256Aligned : Bool
  /-- CWN_LARGE_FORM (92 D11). -/
  cwnLargeForm : LargeForm
  deriving DecidableEq, Repr

/-- The values R6 recommends, which every vector of spec/95_test_vectors.md uses. -/
def Params.recommended : Params := ⟨true, .x691LengthPrefixed⟩

/-- The free value of DIAG after an error of the command with this issue index (R27, U1; log 5). -/
opaque Config.freeDiag : Nat → String

/-- The free value of DIAG at reset (R32, R240: any value; log 6). -/
opaque Config.resetDiag : String

/-- The free value that places CUR after a decode error of the command with this issue index
(R227, U2; log 7). -/
opaque Config.freeCursor : Nat → Nat

end Sys2Proof
end

