-- ==== Sys2Proof/Machine/State.lean ====
section
/-! DEFINITION. The state of one unit (spec/10_state.md R23 to R28, R30, R32), the outcomes a command
returns (spec/60_exceptions.md R220, R226), and the reset state. -/

namespace Sys2Proof.Machine

/-- The buffer mode (R23). -/
inductive Mode where
  /-- No buffer is owned. -/
  | idle
  /-- The unit owns an append-only encode buffer. -/
  | enc
  /-- The unit owns a decode buffer and its cursor. -/
  | dec
  deriving DecidableEq, Repr

/-- The three error kinds (R27, R220). -/
inductive ErrKind where
  /-- Code 1 (R222). -/
  | boundsViolation
  /-- Code 2 (R221). -/
  | unimplemented
  /-- Code 3 (R223). -/
  | exhausted
  deriving DecidableEq, Repr

/-- The reasons a command is refused with (R226). They are outcomes the Host is given and the unit
goes on; they are no stop of the machine. -/
inductive Reason where
  /-- A command word against R65. -/
  | illegalCommand
  /-- A command other than NEW_ENC, NEW_DEC and RELEASE while ERR is not NONE (R224). -/
  | afterError
  /-- A command in a mode it is not legal in (R66). -/
  | modeMismatch
  /-- An operand outside its domain (R67). -/
  | badOperand
  deriving DecidableEq, Repr

/-- The typed values of the result port (R26). -/
inductive Value where
  | unit
  | bool (b : Bool)
  | bits (s : Bits)
  | int (v : Int)
  | octets (o : List Octet)
  deriving DecidableEq, Repr

/-- What a command returns to the Host: `Ok(x)`, `Err(K)` or `Refused(reason)` (R220, R226). -/
inductive CmdOutcome where
  | ok (x : Value)
  | err (k : ErrKind)
  | refused (r : Reason)
  deriving DecidableEq, Repr

/-- One unit with its run's records and the parameters of its steps. -/
structure State where
  /-- The OPEN implementation parameters (R6), a parameter of every step (R30). No command writes
  them (log 4). -/
  params : Params
  /-- The commands the Host has still to issue, first one first (R30, R242; log 1). -/
  pending : List Command
  /-- How many commands the Host has issued, which is the issue index of the command being executed
  (R28; log 10). -/
  issued : Nat
  /-- MODE (R23). -/
  mode : Mode
  /-- WBUF, the encode buffer (R24). -/
  wbuf : Bits
  /-- RBUF, the decode buffer (R25). -/
  rbuf : Bits
  /-- CUR, the read cursor (R25). -/
  cur : Nat
  /-- RES, the result port: `none` is no value (R26). -/
  res : Option Value
  /-- ERR, the error register: `none` is NONE (R27). -/
  err : Option ErrKind
  /-- DIAG, the opaque diagnostic (R27). -/
  diag : String
  /-- FAULT_LOG: every error kind raised, with its command's issue index (R28). -/
  faultLog : List (ErrKind × Nat)
  /-- REFUSED: some command was refused (R28). -/
  refused : Bool
  /-- The sequence of outcomes returned to the Host, which R242 makes part of a run's observation
  (log 11). -/
  outcomes : List CmdOutcome
  deriving DecidableEq, Repr

/-- Why the machine stops. -/
inductive Fault where
  /-- Raised by `step` when the Host has no further command: the run has ended (R242). Safe: the
  machine stops where a unit would wait (log 3). -/
  | endOfRun
  deriving DecidableEq, Repr

/-- Why an instruction has no meaning. -/
inductive Refusal where
  /-- Raised by an arm of `exec` whose instruction is not modelled yet; no arm is left that does.
  Safe. -/
  | notModelled (mnemonic : String)
  deriving DecidableEq, Repr

/-- The reset state of a unit with the given implementation parameters (R32, R240). -/
def State.resetWith (p : Params) : State where
  params := p
  pending := []
  issued := 0
  mode := .idle
  wbuf := []
  rbuf := []
  cur := 0
  res := none
  err := none
  diag := Config.resetDiag
  faultLog := []
  refused := false
  outcomes := []

/-- The machine right after reset (R32, R240), with the recommended parameter values (R6; log 4). -/
def State.reset : State := State.resetWith Params.recommended

end Sys2Proof.Machine
end

