-- ==== Sys2Proof/Machine/Operands.lean ====
section
/-! DEFINITION. The notation of the spec (spec/00_scope.md R6 to R12): numbers as bit sequences, size
functions, padding, octets; and the regime and domain of lengths (R67, R151). -/

namespace Sys2Proof.Machine

/-- FRAG_LIMIT (R6). -/
abbrev fragLimit : Nat := 16384

/-- LEN_CWN_LIMIT (R6). -/
abbrev lenCwnLimit : Int := 65536

/-- BITSTR_ALIGN_THRESHOLD, in bits (R6). -/
abbrev bitStrAlignThreshold : Nat := 16

/-- OCTSTR_ALIGN_THRESHOLD, in octets (R6). -/
abbrev octStrAlignThreshold : Nat := 2

/-- CHARSTR_ALIGN_THRESHOLD, in octets (R6). -/
abbrev charStrAlignThreshold : Nat := 2

/-- `zeros(k)` (R7). -/
def zeros (k : Nat) : Bits := List.replicate k false

/-- `uint_bits(v, k)`: the k low bits of v, most significant first (R9, R42). -/
def uintBits (v : Nat) : Nat → Bits
  | 0 => []
  | k + 1 => v.testBit k :: uintBits v k

/-- `uint(s)`: the sum of `s[i]·2^(|s|-1-i)` (R9). -/
def uint : Bits → Nat
  | [] => 0
  | b :: s => b.toNat * 2 ^ s.length + uint s

/-- `twos_bits(v, k)` (R10). -/
def twosBits (v : Int) (k : Nat) : Bits := uintBits (v % 2 ^ k).toNat k

/-- `sint(s)` (R10). -/
def sint (s : Bits) : Int := if s.head? = some true then (uint s : Int) - 2 ^ s.length else uint s

/-- `nbits(r)`: the least k with `2^k >= r` (R11). `Laws.nbits_le_iff` says that it is the least. -/
def nbits (r : Nat) : Nat := if r ≤ 1 then 0 else (r - 1).log2 + 1

/-- `nonneg_octets(v)`: the least `k >= 1` with `v < 2^(8k)` (R11; `Laws.nonnegOctets_le_iff`). -/
def nonnegOctets (v : Nat) : Nat := if v = 0 then 1 else v.log2 / 8 + 1

/-- `twos_octets(v)`: the least `k >= 1` with `-2^(8k-1) <= v < 2^(8k-1)` (R11;
`Laws.twosOctets_le_iff`). The sign bit doubles the magnitude that must fit. -/
def twosOctets (v : Int) : Nat :=
  if 0 ≤ v then nonnegOctets (2 * v.toNat) else nonnegOctets (2 * (-v - 1).toNat)

/-- `pad(n)`: the zero bits from bit count n to the next octet boundary (R12). -/
def pad (n : Nat) : Nat := (8 - n % 8) % 8

/-- `octets_to_bits(o)` (R12, R41). -/
def octetsToBits (o : List Octet) : Bits := o.flatMap fun x => uintBits x.toNat 8

/-- The first m octets of a bit sequence, octet k being bits 8k to 8k+7 (R41). -/
def octetsOf : Nat → Bits → List Octet
  | 0, _ => []
  | m + 1, s => BitVec.ofNat 8 (uint (s.take 8)) :: octetsOf m (s.drop 8)

/-- `bits_to_octets(s)`, for `|s|` a multiple of 8 (R12, R41). -/
def bitsToOctets (s : Bits) : List Octet := octetsOf (s.length / 8) s

/-- The regime of a length (R151): the bounds of its constrained whole number when `ub` is present
and below LEN_CWN_LIMIT, and `none` for the unconstrained form. -/
def lengthRegime (lb ub : Option Int) : Option (Int × Int) :=
  match ub with
  | some u => if u < lenCwnLimit then some (lb.getD 0, u) else none
  | none => none

/-- The lower bound of a length is in its domain (R67). -/
def lowerBoundLegal (lb : Option Int) : Bool :=
  match lb with
  | some l => decide (0 ≤ l)
  | none => true

/-- The operands of ENC_LEN are in their domains (R67). -/
def encLenLegal (lb : Option Int) (v : Int) : Bool := decide (0 ≤ v) && lowerBoundLegal lb

end Sys2Proof.Machine
end

