-- ==== Sys2Proof/Machine/Flags.lean ====
section
/-! DEFINITION. The checks the command flags call for (spec/30_encoding.md R61, spec/60_exceptions.md
R221, R222) and the status registers S0 to S3 (spec/10_state.md R29). -/

namespace Sys2Proof.Machine

/-- `check c else raise K` (R14). -/
def check (c : Bool) (k : ErrKind) : Except ErrKind Unit := if c then .ok () else .error k

/-- Flag E: an extended value is unimplemented (R221). -/
def checkNotExtended (e : Bool) : Except ErrKind Unit := check (!e) .unimplemented

/-- Flag N: the normally-small length is unimplemented (R150). -/
def checkNotSmall (n : Bool) : Except ErrKind Unit := check (!n) .unimplemented

/-- Flag L: a present lower bound holds (R222). -/
def checkLower (lb : Option Int) (v : Int) : Except ErrKind Unit :=
  match lb with
  | some l => check (decide (l ≤ v)) .boundsViolation
  | none => .ok ()

/-- Flag U: a present upper bound holds (R222). -/
def checkUpper (ub : Option Int) (v : Int) : Except ErrKind Unit :=
  match ub with
  | some u => check (decide (v ≤ u)) .boundsViolation
  | none => .ok ()

/-- A count is below FRAG_LIMIT (R221). -/
def checkNotFragmented (n : Nat) : Except ErrKind Unit :=
  check (decide (n < fragLimit)) .unimplemented

/-- A length is below FRAG_LIMIT wherever its determinant has the unconstrained form (R156, R188). -/
def checkDeterminant (lb ub : Option Int) (n : Nat) : Except ErrKind Unit :=
  match lengthRegime lb ub with
  | some _ => .ok ()
  | none => checkNotFragmented n

/-- The status registers' numbers (R29). -/
inductive StatusReg where
  | s0 | s1 | s2 | s3
  deriving DecidableEq, Repr

/-- What a status register reads as: 32 bits, an unbounded natural, or the opaque diagnostic (R29). -/
inductive StatusValue where
  | word (w : BitVec 32)
  | nat (n : Nat)
  | opaq (d : String)
  deriving DecidableEq, Repr

/-- S0.MODE (R29). -/
def Mode.code : Mode → BitVec 32
  | .idle => 0
  | .enc => 1
  | .dec => 2

/-- The error codes (R220). -/
def ErrKind.code : ErrKind → BitVec 32
  | .boundsViolation => 1
  | .unimplemented => 2
  | .exhausted => 3

/-- S0.ERRKIND (R29): NONE is 0. -/
def errCode : Option ErrKind → BitVec 32
  | none => 0
  | some k => k.code

/-- S0 STATUS: MODE in bits 1 to 0, ERRKIND in 3 to 2, REFUSED in 4, the rest 0 (R29). -/
def statusWord (s : State) : BitVec 32 :=
  s.mode.code ||| (errCode s.err <<< 2) ||| ((BitVec.ofBool s.refused).setWidth 32 <<< 4)

/-- S1 POS: the write position, the read cursor, or 0 (R22, R29). -/
def statusPos (s : State) : Nat :=
  match s.mode with
  | .idle => 0
  | .enc => s.wbuf.length
  | .dec => s.cur

/-- S2 LEN: the length of the owned buffer, or 0 (R29). -/
def statusLen (s : State) : Nat :=
  match s.mode with
  | .idle => 0
  | .enc => s.wbuf.length
  | .dec => s.rbuf.length

/-- The Host's read of a status register, between commands (R29, R250). It changes nothing. -/
def readStatus (r : StatusReg) (s : State) : StatusValue :=
  match r with
  | .s0 => .word (statusWord s)
  | .s1 => .nat (statusPos s)
  | .s2 => .nat (statusLen s)
  | .s3 => .opaq s.diag

end Sys2Proof.Machine
end

