-- ==== Sys2Proof/Machine/Ops.lean ====
section
/-! DEFINITION. The shared operations: the buffer primitives (spec/40_bit_buffer.md R100 to R109), the
three ways a command ends (spec/60_exceptions.md R220, R226, spec/10_state.md R26), the common checks
and their order (spec/30_encoding.md R66 to R68), and taking the Host's next command. -/

namespace Sys2Proof.Machine

/-- What a step or a meaning answers. -/
abbrev Answer := Host.Outcome State Fault Refusal

/-! ### The buffer primitives -/

/-- `Append(s)` (R100). -/
def appendBits (wbuf s : Bits) : Bits := wbuf ++ s

/-- `AlignE()` (R102). -/
def alignEnc (wbuf : Bits) : Bits := appendBits wbuf (zeros (pad wbuf.length))

/-- `Read(n)` at cursor `cur` (R104): the bits and the new cursor, or Exhausted. -/
def readBits (rbuf : Bits) (cur n : Nat) : Except ErrKind (Bits × Nat) :=
  if cur + n ≤ rbuf.length then .ok ((rbuf.drop cur).take n, cur + n) else .error .exhausted

/-- `AlignD()` at cursor `cur` (R106): the new cursor, or Exhausted. The bits are not looked at. -/
def alignDec (rbuf : Bits) (cur : Nat) : Except ErrKind Nat :=
  if cur + pad cur ≤ rbuf.length then .ok (cur + pad cur) else .error .exhausted

/-- `uint(Read(n))` (R9, R104). -/
def readUint (rbuf : Bits) (cur n : Nat) : Except ErrKind (Nat × Nat) := do
  let (s, c) ← readBits rbuf cur n
  .ok (uint s, c)

/-- `AlignD(); uint(Read(n))` (R106, R104). -/
def readUintAligned (rbuf : Bits) (cur n : Nat) : Except ErrKind (Nat × Nat) := do
  let c ← alignDec rbuf cur
  readUint rbuf c n

/-- `EncMarker(X)` (R109): the marker is always written 0. -/
def encMarker (x : Bool) (wbuf : Bits) : Bits := if x then appendBits wbuf [false] else wbuf

/-- `DecMarker(X)` (R109): a marker read as 1 is unimplemented. -/
def decMarker (x : Bool) (rbuf : Bits) (cur : Nat) : Except ErrKind Nat :=
  if x then do
    let (m, c) ← readBits rbuf cur 1
    if m = [false] then .ok c else .error .unimplemented
  else .ok cur

/-! ### How a command ends -/

/-- `return x` (R13, R26): the value stands on RES and the outcome is `Ok(x)`. -/
def State.complete (x : Value) (s : State) : State :=
  { s with res := some x, outcomes := s.outcomes ++ [.ok x] }

/-- `raise K` (R220): ERR, DIAG, FAULT_LOG and RES are written and the outcome is `Err(K)`. DIAG is
a free value (R27, U1; log 5). MODE and the buffers are unchanged. -/
def State.raise (k : ErrKind) (s : State) : State :=
  { s with
    err := some k
    diag := Config.freeDiag s.issued
    faultLog := s.faultLog ++ [(k, s.issued)]
    res := none
    outcomes := s.outcomes ++ [.err k] }

/-- `refuse(reason)` (R226): REFUSED is set, RES holds no value (R26; log 9), and the outcome is
`Refused(reason)`. -/
def State.refuse (r : Reason) (s : State) : State :=
  { s with refused := true, res := none, outcomes := s.outcomes ++ [.refused r] }

/-- CUR after an error of a decode command (R227, U2): any value from CUR to `|RBUF|`, placed there
by a free value (log 7). Where CUR is already past the end, which no run reaches, it stays. -/
def State.scatterCursor (s : State) : State :=
  { s with cur := s.cur + Config.freeCursor s.issued % (s.rbuf.length - s.cur + 1) }

/-! ### The common checks and the two shapes of a command -/

/-- The checks after the command word's, in the order of R68: after an error (R224), the mode (R66),
the operands (R67). -/
def admission (need : Mode) (legal : Bool) (s : State) : Option Reason :=
  if s.err ≠ none then some .afterError
  else if s.mode ≠ need then some .modeMismatch
  else if legal then none
  else some .badOperand

/-- An encode command (R225, R227): every check comes before every write, so an error leaves WBUF
unchanged. -/
def encodeCommand (legal : Bool) (checks : Except ErrKind Unit) (write : Bits → Bits) (s : State) :
    Answer :=
  match admission .enc legal s with
  | some r => .next (s.refuse r)
  | none =>
    match checks with
    | .error k => .next (s.raise k)
    | .ok _ => .next ({ s with wbuf := write s.wbuf }.complete .unit)

/-- A decode command (R225, R227): `checks` are those its rule makes before it reads any bit, whose
error does not move CUR (R150; log 8), and `run` reads from RBUF at CUR. -/
def decodeCommand (legal : Bool) (checks : Except ErrKind Unit)
    (run : Bits → Nat → Except ErrKind (Value × Nat)) (s : State) : Answer :=
  match admission .dec legal s with
  | some r => .next (s.refuse r)
  | none =>
    match checks with
    | .error k => .next (s.raise k)
    | .ok _ =>
      match run s.rbuf s.cur with
      | .error k => .next (s.scatterCursor.raise k)
      | .ok (x, c) => .next ({ s with cur := c }.complete x)

/-! ### Taking the Host's next command -/

/-- What taking the next command gives. -/
inductive Fetched where
  /-- The Host has no further command. -/
  | nothing
  /-- The command's word is illegal; the state after its refusal. -/
  | illegal (s : State)
  /-- A legal command and the state it executes in. -/
  | command (i : Instr) (s : State)

/-- The unit takes the Host's next command (R20, R50), which counts it (R28), and checks its word
first (R65, R68). An illegal word is refused and changes nothing else. -/
def fetch (s : State) : Fetched :=
  match s.pending with
  | [] => .nothing
  | c :: rest =>
    let t := { s with pending := rest, issued := s.issued + 1 }
    match decode c with
    | .error _ => .illegal (t.refuse .illegalCommand)
    | .ok i => .command i t

/-- The state in which the Host's next command is `c` (log 2). -/
def State.issueNext (c : Command) (s : State) : State := { s with pending := c :: s.pending }

end Sys2Proof.Machine
end

