-- ==== Sys2Proof/Machine/BitBuffer.lean ====
section
/-! DEFINITION. The bit-buffer commands (spec/40_bit_buffer.md R101, R103, R105, R107, R108). -/

namespace Sys2Proof.Machine

/-- APPEND_BITS (R101). -/
def execAppendBits (bits : Bits) (s : State) : Answer :=
  encodeCommand true (.ok ()) (fun w => appendBits w bits) s

/-- ALIGN_E (R103). -/
def execAlignE (s : State) : Answer := encodeCommand true (.ok ()) alignEnc s

/-- Reading one bit as a Bool (R105, R171): `s[0] = 1`. -/
def readBool (rbuf : Bits) (cur : Nat) : Except ErrKind (Value × Nat) := do
  let (b, c) ← readBits rbuf cur 1
  .ok (.bool (b.head? == some true), c)

/-- READ_BIT (R105). -/
def execReadBit (s : State) : Answer := decodeCommand true (.ok ()) readBool s

/-- Reading n bits as a bit sequence (R107, R213). -/
def readValue (n : Nat) (rbuf : Bits) (cur : Nat) : Except ErrKind (Value × Nat) := do
  let (b, c) ← readBits rbuf cur n
  .ok (.bits b, c)

/-- READ_BITS (R107). -/
def execReadBits (n : Nat) (s : State) : Answer := decodeCommand true (.ok ()) (readValue n) s

/-- Skipping to an octet boundary (R108). -/
def runAlignD (rbuf : Bits) (cur : Nat) : Except ErrKind (Value × Nat) := do
  let c ← alignDec rbuf cur
  .ok (.unit, c)

/-- ALIGN_D (R108). -/
def execAlignD (s : State) : Answer := decodeCommand true (.ok ()) runAlignD s

end Sys2Proof.Machine
end

