-- ==== Sys2Proof/Machine/LengthForm.lean ====
section
/-! DEFINITION. The constrained whole number (spec/41_whole_number.md R120, R121) and the length
determinant (spec/42_length_determinant.md R152 to R155), which the command families share. -/

namespace Sys2Proof.Machine

/-! ### Constrained whole number

A constrained whole number depends on its bounds only through the number of values `r`, and on its
value only through the offset `n` (R120). The length-prefixed large form encodes its octet count by
the same procedure over `[1, K]`, so the procedures recurse; `cwnFuel` bounds the recursion, and
`Laws.cwnEncode_eq` and `Laws.cwnDecode_eq` say that it never runs out (log 13). -/

/-- Whether the field is a minimal bit-field, unaligned (R120). -/
def cwnUnaligned (p : Params) (r : Nat) : Bool :=
  decide (r < 256) || (decide (r = 256) && !p.cwn256Aligned)

/-- How deep the procedures may recurse. -/
def cwnFuel (r : Nat) : Nat := nbits r + 1

/-- The offset n of a range of r values, appended (R120). -/
def cwnEncode (p : Params) : Nat → Nat → Nat → Bits → Bits
  | 0, _, _, w => w
  | fuel + 1, r, n, w =>
    if r = 1 then w
    else if cwnUnaligned p r then appendBits w (uintBits n (nbits r))
    else if r = 256 then appendBits (alignEnc w) (uintBits n 8)
    else if r ≤ 65536 then appendBits (alignEnc w) (uintBits n 16)
    else
      match p.cwnLargeForm with
      | .x691LengthPrefixed =>
        let k := nonnegOctets n
        appendBits (alignEnc (cwnEncode p fuel (nonnegOctets (r - 1)) (k - 1) w)) (uintBits n (8 * k))
      | .fixedRangeOctets => appendBits (alignEnc w) (uintBits n (8 * nonnegOctets (r - 1)))

/-- The number of values of `[lb, ub]`, and 0 for an empty range (R120). -/
def rangeSize (lb ub : Int) : Nat := (ub - lb + 1).toNat

/-- `EncCWN(lb, ub, v)` for `lb <= v <= ub` (R120). -/
def encCwn (p : Params) (lb ub v : Int) (w : Bits) : Bits :=
  cwnEncode p (cwnFuel (rangeSize lb ub)) (rangeSize lb ub) (v - lb).toNat w

/-- The closing check on a decoded offset (R121). -/
def checkOffset (r : Nat) (res : Nat × Nat) : Except ErrKind (Nat × Nat) :=
  if res.1 ≤ r - 1 then .ok res else .error .boundsViolation

/-- The offset of a range of r values, read (R121). An empty range is refused before any read. -/
def cwnDecode (p : Params) (rbuf : Bits) : Nat → Nat → Nat → Except ErrKind (Nat × Nat)
  | 0, _, _ => .error .boundsViolation
  | fuel + 1, r, cur =>
    if r = 0 then .error .boundsViolation
    else if r = 1 then .ok (0, cur)
    else if cwnUnaligned p r then readUint rbuf cur (nbits r) >>= checkOffset r
    else if r = 256 then readUintAligned rbuf cur 8 >>= checkOffset r
    else if r ≤ 65536 then readUintAligned rbuf cur 16 >>= checkOffset r
    else
      match p.cwnLargeForm with
      | .x691LengthPrefixed => do
        let (k, c) ← cwnDecode p rbuf fuel (nonnegOctets (r - 1)) cur
        readUintAligned rbuf c (8 * (1 + k)) >>= checkOffset r
      | .fixedRangeOctets =>
        readUintAligned rbuf cur (8 * nonnegOctets (r - 1)) >>= checkOffset r

/-- `DecCWN(lb, ub)`: the offset and the new cursor (R121). -/
def decCwn (p : Params) (lb ub : Int) (rbuf : Bits) (cur : Nat) : Except ErrKind (Nat × Nat) :=
  cwnDecode p rbuf (cwnFuel (rangeSize lb ub)) (rangeSize lb ub) cur

/-- `lb + DecCWN(lb, ub)` (R127, R155, R173, R211). -/
def decCwnValue (p : Params) (lb ub : Int) (rbuf : Bits) (cur : Nat) :
    Except ErrKind (Int × Nat) := do
  let (n, c) ← decCwn p lb ub rbuf cur
  .ok (lb + n, c)

/-! ### Length determinant -/

/-- The octets of an unconstrained length: `0nnnnnnn`, or `10nnnnnn nnnnnnnn` (R152). -/
def lengthOctets (n : Nat) : Bits :=
  if n < 128 then false :: uintBits n 7 else true :: false :: uintBits n 14

/-- `EncUnconLen(n)` for `n < 16384` (R152). -/
def encUnconLen (n : Nat) (w : Bits) : Bits := appendBits (alignEnc w) (lengthOctets n)

/-- `DecUnconLen()` (R153). After a first `11` nothing more is read. -/
def decUnconLen (rbuf : Bits) (cur : Nat) : Except ErrKind (Nat × Nat) := do
  let c ← alignDec rbuf cur
  let (s0, c0) ← readBits rbuf c 1
  if s0 = [false] then readUint rbuf c0 7
  else do
    let (s1, c1) ← readBits rbuf c0 1
    if s1 = [false] then readUint rbuf c1 14 else .error .unimplemented

/-- `EncLen(L, U, lb, ub, n)` (R154). -/
def encLen (p : Params) (lb ub : Option Int) (n : Nat) (w : Bits) : Bits :=
  match lengthRegime lb ub with
  | some (l, u) => encCwn p l u n w
  | none => encUnconLen n w

/-- The length as its regime reads it, before the closing checks (R155). -/
def decLenRaw (p : Params) (lb ub : Option Int) (rbuf : Bits) (cur : Nat) :
    Except ErrKind (Int × Nat) :=
  match lengthRegime lb ub with
  | some (l, u) => decCwnValue p l u rbuf cur
  | none => do
    let (n, c) ← decUnconLen rbuf cur
    .ok (n, c)

/-- `DecLen(L, U, lb, ub)` (R155). -/
def decLen (p : Params) (lb ub : Option Int) (rbuf : Bits) (cur : Nat) :
    Except ErrKind (Int × Nat) := do
  let (n, c) ← decLenRaw p lb ub rbuf cur
  checkLower lb n
  checkUpper ub n
  .ok (n, c)

end Sys2Proof.Machine
end

