-- ==== Sys2Proof/Machine/OrdinalForm.lean ====
section
/-! DEFINITION. The wire form ENUMERATED ordinals and CHOICE indices share: the marker, then a
constrained whole number over both bounds (spec/30_encoding.md R70, R72). -/

namespace Sys2Proof.Machine

/-- The checks of an ordinal, in order (R172, R210). -/
def ordinalChecks (e : Bool) (lb ub v : Int) : Except ErrKind Unit := do
  checkNotExtended e
  checkLower (some lb) v
  checkUpper (some ub) v

/-- The bits of an ordinal (R172, R210). -/
def encOrdinal (p : Params) (x : Bool) (lb ub v : Int) (w : Bits) : Bits :=
  encCwn p lb ub v (encMarker x w)

/-- The reads of an ordinal (R173, R211). -/
def runDecOrdinal (p : Params) (x : Bool) (lb ub : Int) (rbuf : Bits) (cur : Nat) :
    Except ErrKind (Value × Nat) := do
  let c0 ← decMarker x rbuf cur
  let (v, c) ← decCwnValue p lb ub rbuf c0
  .ok (.int v, c)

end Sys2Proof.Machine
end

