-- ==== Sys2Proof/Machine/BooleanEnumerated.lean ====
section
/-! DEFINITION. The BOOLEAN and ENUMERATED commands (spec/43_boolean_enumerated.md R170 to R173). -/

namespace Sys2Proof.Machine

/-- ENC_BOOL (R170). -/
def execEncBool (b : Bool) (s : State) : Answer :=
  encodeCommand true (.ok ()) (fun w => appendBits w [b]) s

/-- DEC_BOOL (R171). -/
def execDecBool (s : State) : Answer := decodeCommand true (.ok ()) readBool s

/-- ENC_ENUM (R172). -/
def execEncEnum (e x : Bool) (lb ub v : Int) (s : State) : Answer :=
  encodeCommand true (ordinalChecks e lb ub v) (encOrdinal s.params x lb ub v) s

/-- DEC_ENUM (R173). -/
def execDecEnum (x : Bool) (lb ub : Int) (s : State) : Answer :=
  decodeCommand true (.ok ()) (runDecOrdinal s.params x lb ub) s

end Sys2Proof.Machine
end

