-- ==== Sys2Proof/Machine/ChoiceSequence.lean ====
section
/-! DEFINITION. The choice index and sequence header commands (spec/45_choice_sequence.md R210 to
R213). -/

namespace Sys2Proof.Machine

/-- ENC_CHOICE (R210). -/
def execEncChoice (e x : Bool) (lb ub v : Int) (s : State) : Answer :=
  encodeCommand true (ordinalChecks e lb ub v) (encOrdinal s.params x lb ub v) s

/-- DEC_CHOICE (R211). -/
def execDecChoice (x : Bool) (lb ub : Int) (s : State) : Answer :=
  decodeCommand true (.ok ()) (runDecOrdinal s.params x lb ub) s

/-- ENC_SEQHDR (R212): the bitmap has no length prefix and is never aligned. -/
def execEncSeqHdr (e x : Bool) (bits : Bits) (s : State) : Answer :=
  encodeCommand true (checkNotExtended e) (fun w => appendBits (encMarker x w) bits) s

/-- The reads of DEC_SEQHDR (R213). -/
def runDecSeqHdr (x : Bool) (n : Nat) (rbuf : Bits) (cur : Nat) :
    Except ErrKind (Value × Nat) := do
  let c0 ← decMarker x rbuf cur
  readValue n rbuf c0

/-- DEC_SEQHDR (R213). -/
def execDecSeqHdr (x : Bool) (n : Nat) (s : State) : Answer :=
  decodeCommand true (.ok ()) (runDecSeqHdr x n) s

end Sys2Proof.Machine
end

