-- ==== Sys2Proof/Machine/LengthDeterminant.lean ====
section
/-! DEFINITION. The length-determinant commands (spec/42_length_determinant.md R150, R156, R157). -/

namespace Sys2Proof.Machine

/-- The checks of ENC_LEN, in order (R156). -/
def encLenChecks (n : Bool) (lb ub : Option Int) (v : Int) : Except ErrKind Unit := do
  checkNotSmall n
  checkLower lb v
  checkUpper ub v
  checkDeterminant lb ub v.toNat

/-- ENC_LEN (R156). -/
def execEncLen (n : Bool) (lb ub : Option Int) (v : Int) (s : State) : Answer :=
  encodeCommand (encLenLegal lb v) (encLenChecks n lb ub v) (encLen s.params lb ub v.toNat) s

/-- The reads of DEC_LEN (R157). -/
def runDecLen (p : Params) (lb ub : Option Int) (rbuf : Bits) (cur : Nat) :
    Except ErrKind (Value × Nat) := do
  let (n, c) ← decLen p lb ub rbuf cur
  .ok (.int n, c)

/-- DEC_LEN (R157): the normally-small form is rejected before any read (R150). -/
def execDecLen (n : Bool) (lb ub : Option Int) (s : State) : Answer :=
  decodeCommand (lowerBoundLegal lb) (checkNotSmall n) (runDecLen s.params lb ub) s

end Sys2Proof.Machine
end

