-- ==== Sys2Proof/Machine/Lifecycle.lean ====
section
/-! DEFINITION. The lifecycle commands (spec/40_bit_buffer.md R110 to R113). NEW_ENC, NEW_DEC and
RELEASE are accepted in every mode and after an error (R66, R224). -/

namespace Sys2Proof.Machine

/-- NEW_ENC (R110). -/
def execNewEnc (s : State) : Answer :=
  .next ({ s with mode := .enc, wbuf := [], rbuf := [], cur := 0, err := none }.complete .unit)

/-- NEW_DEC (R111). -/
def execNewDec (bytes : List Octet) (s : State) : Answer :=
  .next ({ s with
    mode := .dec, rbuf := octetsToBits bytes, cur := 0, wbuf := [], err := none }.complete .unit)

/-- The octets FINISH returns: the last one zero-padded (R112). -/
def finishOctets (wbuf : Bits) : List Octet := bitsToOctets (alignEnc wbuf)

/-- FINISH (R112). -/
def execFinish (s : State) : Answer :=
  match admission .enc true s with
  | some r => .next (s.refuse r)
  | none => .next ({ s with mode := .idle, wbuf := [] }.complete (.octets (finishOctets s.wbuf)))

/-- RELEASE (R113). -/
def execRelease (s : State) : Answer :=
  .next ({ s with mode := .idle, wbuf := [], rbuf := [], cur := 0, err := none }.complete .unit)

end Sys2Proof.Machine
end

