-- ==== Sys2Proof/Machine/Strings.lean ====
section
/-! DEFINITION. The BIT STRING, OCTET STRING and character-string commands (spec/44_strings.md R180 to
R195). -/

namespace Sys2Proof.Machine

/-- The checks every string makes on flag E and on its length, in order (R180, R184, R188). -/
def stringChecks (e : Bool) (lb ub : Option Int) (len : Nat) : Except ErrKind Unit := do
  checkNotExtended e
  checkLower lb len
  checkUpper ub len

/-- The checks of a bit or octet string: the 16384 limit holds in every regime (R180, R184). -/
def limitedStringChecks (e : Bool) (lb ub : Option Int) (len : Nat) : Except ErrKind Unit := do
  stringChecks e lb ub len
  checkNotFragmented len

/-- The checks of a character string: the limit holds in the unconstrained regime only (R188). -/
def charStringChecks (e : Bool) (lb ub : Option Int) (len : Nat) : Except ErrKind Unit := do
  stringChecks e lb ub len
  checkDeterminant lb ub len

/-- The bits of a string of `len` units whose content is `content`: marker, determinant, alignment
above the threshold, content (R180, R184, R188). -/
def encString (p : Params) (threshold : Nat) (x : Bool) (lb ub : Option Int) (len : Nat)
    (content w : Bits) : Bits :=
  let d := encLen p lb ub len (encMarker x w)
  appendBits (if len > threshold then alignEnc d else d) content

/-- The cursor at a string's content: aligned above the threshold (R181, R185, R189). -/
def alignContent (threshold len : Nat) (rbuf : Bits) (cur : Nat) : Except ErrKind Nat :=
  if len > threshold then alignDec rbuf cur else .ok cur

/-- The marker and the length of a string, read (R181, R185, R189). -/
def decStringLen (p : Params) (x : Bool) (lb ub : Option Int) (rbuf : Bits) (cur : Nat) :
    Except ErrKind (Nat × Nat) := do
  let c0 ← decMarker x rbuf cur
  let (len, c) ← decLen p lb ub rbuf c0
  .ok (len.toNat, c)

/-- The content of `len` units of `width` bits each, read (R181, R185, R189). -/
def decContent (threshold width len : Nat) (rbuf : Bits) (cur : Nat) :
    Except ErrKind (Bits × Nat) := do
  let c ← alignContent threshold len rbuf cur
  readBits rbuf c (width * len)

/-- The reads of a bit string (R181). -/
def runDecBitStr (p : Params) (x : Bool) (lb ub : Option Int) (rbuf : Bits) (cur : Nat) :
    Except ErrKind (Value × Nat) := do
  let (len, c) ← decStringLen p x lb ub rbuf cur
  checkNotFragmented len
  let (b, c1) ← decContent bitStrAlignThreshold 1 len rbuf c
  .ok (.bits b, c1)

/-- The reads of an octet string (R185). -/
def runDecOctStr (p : Params) (x : Bool) (lb ub : Option Int) (rbuf : Bits) (cur : Nat) :
    Except ErrKind (Value × Nat) := do
  let (len, c) ← decStringLen p x lb ub rbuf cur
  checkNotFragmented len
  let (b, c1) ← decContent octStrAlignThreshold 8 len rbuf c
  .ok (.octets (bitsToOctets b), c1)

/-- `DecCharStr` (R189). -/
def runDecCharStr (p : Params) (x : Bool) (lb ub : Option Int) (rbuf : Bits) (cur : Nat) :
    Except ErrKind (Value × Nat) := do
  let (len, c) ← decStringLen p x lb ub rbuf cur
  let (b, c1) ← decContent charStrAlignThreshold 8 len rbuf c
  .ok (.octets (bitsToOctets b), c1)

/-- `EncCharStr` (R188). -/
def encodeCharStr (e x : Bool) (lb ub : Option Int) (octets : List Octet) (s : State) : Answer :=
  encodeCommand (lowerBoundLegal lb) (charStringChecks e lb ub octets.length)
    (encString s.params charStrAlignThreshold x lb ub octets.length (octetsToBits octets)) s

/-- The decode command of a character string (R189). -/
def decodeCharStr (x : Bool) (lb ub : Option Int) (s : State) : Answer :=
  decodeCommand (lowerBoundLegal lb) (.ok ()) (runDecCharStr s.params x lb ub) s

/-- ENC_BITSTR (R180). -/
def execEncBitStr (e x : Bool) (lb ub : Option Int) (bits : Bits) (s : State) : Answer :=
  encodeCommand (lowerBoundLegal lb) (limitedStringChecks e lb ub bits.length)
    (encString s.params bitStrAlignThreshold x lb ub bits.length bits) s

/-- DEC_BITSTR (R181). -/
def execDecBitStr (x : Bool) (lb ub : Option Int) (s : State) : Answer :=
  decodeCommand (lowerBoundLegal lb) (.ok ()) (runDecBitStr s.params x lb ub) s

/-- ENC_OCTSTR (R184). -/
def execEncOctStr (e x : Bool) (lb ub : Option Int) (octets : List Octet) (s : State) : Answer :=
  encodeCommand (lowerBoundLegal lb) (limitedStringChecks e lb ub octets.length)
    (encString s.params octStrAlignThreshold x lb ub octets.length (octetsToBits octets)) s

/-- DEC_OCTSTR (R185). -/
def execDecOctStr (x : Bool) (lb ub : Option Int) (s : State) : Answer :=
  decodeCommand (lowerBoundLegal lb) (.ok ()) (runDecOctStr s.params x lb ub) s

/-- ENC_VISSTR (R190). -/
def execEncVisStr (e x : Bool) (lb ub : Option Int) (octets : List Octet) (s : State) : Answer :=
  encodeCharStr e x lb ub octets s

/-- DEC_VISSTR (R191). -/
def execDecVisStr (x : Bool) (lb ub : Option Int) (s : State) : Answer := decodeCharStr x lb ub s

/-- ENC_PRTSTR (R192). -/
def execEncPrtStr (e x : Bool) (lb ub : Option Int) (octets : List Octet) (s : State) : Answer :=
  encodeCharStr e x lb ub octets s

/-- DEC_PRTSTR (R193). -/
def execDecPrtStr (x : Bool) (lb ub : Option Int) (s : State) : Answer := decodeCharStr x lb ub s

/-- ENC_UTF8STR (R194). -/
def execEncUtf8Str (e x : Bool) (lb ub : Option Int) (octets : List Octet) (s : State) : Answer :=
  encodeCharStr e x lb ub octets s

/-- DEC_UTF8STR (R195). -/
def execDecUtf8Str (x : Bool) (lb ub : Option Int) (s : State) : Answer := decodeCharStr x lb ub s

end Sys2Proof.Machine
end

