-- ==== Sys2Proof/Machine/WholeNumber.lean ====
section
/-! DEFINITION. The whole-number commands (spec/41_whole_number.md R122 to R127). -/

namespace Sys2Proof.Machine

/-- `EncSemi(lb, v)` for `v >= lb` (R122). -/
def encSemi (lb v : Int) (w : Bits) : Bits :=
  let n := (v - lb).toNat
  let k := nonnegOctets n
  appendBits (encUnconLen k w) (uintBits n (8 * k))

/-- `EncUncon(v)` (R124). -/
def encUncon (v : Int) (w : Bits) : Bits :=
  let k := twosOctets v
  appendBits (encUnconLen k w) (twosBits v (8 * k))

/-- The octets of a semi-constrained or unconstrained integer, as bits: at least one octet (R123,
R125). -/
def decIntOctets (rbuf : Bits) (cur : Nat) : Except ErrKind (Bits × Nat) := do
  let (k, c) ← decUnconLen rbuf cur
  if 1 ≤ k then readBits rbuf c (8 * k) else .error .boundsViolation

/-- `DecSemi(lb)` (R123). -/
def decSemi (lb : Int) (rbuf : Bits) (cur : Nat) : Except ErrKind (Int × Nat) := do
  let (b, c) ← decIntOctets rbuf cur
  .ok (lb + uint b, c)

/-- `DecUncon()` (R125). -/
def decUncon (rbuf : Bits) (cur : Nat) : Except ErrKind (Int × Nat) := do
  let (b, c) ← decIntOctets rbuf cur
  .ok (sint b, c)

/-- The limit on an integer's own octet count, which has the unconstrained length form unless both
bounds are present (R126, 92 D36). -/
def checkIntOctets (lb ub : Option Int) (v : Int) : Except ErrKind Unit :=
  match lb, ub with
  | some _, some _ => .ok ()
  | some l, none => checkNotFragmented (nonnegOctets (v - l).toNat)
  | none, _ => checkNotFragmented (twosOctets v)

/-- The checks of ENC_INT, in order (R126). -/
def encIntChecks (e : Bool) (lb ub : Option Int) (v : Int) : Except ErrKind Unit := do
  checkNotExtended e
  checkLower lb v
  checkUpper ub v
  checkIntOctets lb ub v

/-- The form of an integer by its bounds (R126): with `lb` absent, `ub` is checked and then
ignored. -/
def encIntForm (p : Params) (lb ub : Option Int) (v : Int) (w : Bits) : Bits :=
  match lb, ub with
  | some l, some u => encCwn p l u v w
  | some l, none => encSemi l v w
  | none, _ => encUncon v w

/-- ENC_INT (R126). -/
def execEncInt (e x : Bool) (lb ub : Option Int) (v : Int) (s : State) : Answer :=
  encodeCommand true (encIntChecks e lb ub v)
    (fun w => encIntForm s.params lb ub v (encMarker x w)) s

/-- The integer as its form reads it (R127). -/
def decIntForm (p : Params) (lb ub : Option Int) (rbuf : Bits) (cur : Nat) :
    Except ErrKind (Int × Nat) :=
  match lb, ub with
  | some l, some u => decCwnValue p l u rbuf cur
  | some l, none => decSemi l rbuf cur
  | none, _ => do
    let (v, c) ← decUncon rbuf cur
    checkUpper ub v
    .ok (v, c)

/-- The reads of DEC_INT (R127). -/
def runDecInt (p : Params) (x : Bool) (lb ub : Option Int) (rbuf : Bits) (cur : Nat) :
    Except ErrKind (Value × Nat) := do
  let c0 ← decMarker x rbuf cur
  let (v, c) ← decIntForm p lb ub rbuf c0
  .ok (.int v, c)

/-- DEC_INT (R127). -/
def execDecInt (x : Bool) (lb ub : Option Int) (s : State) : Answer :=
  decodeCommand true (.ok ()) (runDecInt s.params x lb ub) s

end Sys2Proof.Machine
end

