-- ==== Sys2Proof/Machine/Dispatch.lean ====
section
/-! DEFINITION. The one dispatch from a command to its meaning. -/

namespace Sys2Proof.Machine

def exec (i : Instr) (s : State) : Host.Outcome State Fault Refusal :=
  match i with
  | .newEnc => Sys2Proof.Machine.execNewEnc s
  | .newDec bytes => Sys2Proof.Machine.execNewDec bytes s
  | .finish => Sys2Proof.Machine.execFinish s
  | .release => Sys2Proof.Machine.execRelease s
  | .appendBits bits => Sys2Proof.Machine.execAppendBits bits s
  | .alignE => Sys2Proof.Machine.execAlignE s
  | .readBit => Sys2Proof.Machine.execReadBit s
  | .readBits n => Sys2Proof.Machine.execReadBits n s
  | .alignD => Sys2Proof.Machine.execAlignD s
  | .encBool b => Sys2Proof.Machine.execEncBool b s
  | .decBool => Sys2Proof.Machine.execDecBool s
  | .encInt e x lb ub v => Sys2Proof.Machine.execEncInt e x lb ub v s
  | .decInt x lb ub => Sys2Proof.Machine.execDecInt x lb ub s
  | .encEnum e x lb ub v => Sys2Proof.Machine.execEncEnum e x lb ub v s
  | .decEnum x lb ub => Sys2Proof.Machine.execDecEnum x lb ub s
  | .encLen n lb ub v => Sys2Proof.Machine.execEncLen n lb ub v s
  | .decLen n lb ub => Sys2Proof.Machine.execDecLen n lb ub s
  | .encBitStr e x lb ub bits => Sys2Proof.Machine.execEncBitStr e x lb ub bits s
  | .decBitStr x lb ub => Sys2Proof.Machine.execDecBitStr x lb ub s
  | .encOctStr e x lb ub octets => Sys2Proof.Machine.execEncOctStr e x lb ub octets s
  | .decOctStr x lb ub => Sys2Proof.Machine.execDecOctStr x lb ub s
  | .encVisStr e x lb ub octets => Sys2Proof.Machine.execEncVisStr e x lb ub octets s
  | .decVisStr x lb ub => Sys2Proof.Machine.execDecVisStr x lb ub s
  | .encPrtStr e x lb ub octets => Sys2Proof.Machine.execEncPrtStr e x lb ub octets s
  | .decPrtStr x lb ub => Sys2Proof.Machine.execDecPrtStr x lb ub s
  | .encUtf8Str e x lb ub octets => Sys2Proof.Machine.execEncUtf8Str e x lb ub octets s
  | .decUtf8Str x lb ub => Sys2Proof.Machine.execDecUtf8Str x lb ub s
  | .encChoice e x lb ub v => Sys2Proof.Machine.execEncChoice e x lb ub v s
  | .decChoice x lb ub => Sys2Proof.Machine.execDecChoice x lb ub s
  | .encSeqHdr e x bits => Sys2Proof.Machine.execEncSeqHdr e x bits s
  | .decSeqHdr x n => Sys2Proof.Machine.execDecSeqHdr x n s

end Sys2Proof.Machine
end

