-- ==== Sys2Proof/Machine/Step.lean ====
section
/-! DEFINITION. One step of the machine: the unit takes the Host's next command and executes it as one
atomic step (spec/00_scope.md R3, spec/10_state.md R20). -/

namespace Sys2Proof.Machine

/-- One command of the Host, from issue to outcome. -/
def step (s : State) : Host.Outcome State Fault Refusal :=
  match fetch s with
  | .nothing => .fault .endOfRun
  | .illegal t => .next t
  | .command i t => exec i t

/-- `s` with the command whose word's bits are `w`, and whose operands are zero, as the next command
the Host issues. -/
def State.withFetchWord (s : State) (nbits w : Nat) : State := s.issueNext (tableCommand nbits w)

end Sys2Proof.Machine
end

