-- ==== Sys2Proof/Machine/Assembler.lean ====
section
/-! DEFINITION. The assembler syntax (spec/30_encoding.md R69): a line is a mnemonic, the suffixes `n`,
`e` and `x`, and operands. Writing a bound sets its flag, omitting it clears the flag. -/

namespace Sys2Proof.Machine

/-- An operand of an assembly line (R69). -/
inductive AsmOperand where
  | lb (i : Int)
  | ub (i : Int)
  | v (i : Int)
  | b (i : Bool)
  | bits (s : Bits)
  | octets (o : List Octet)
  | n (k : Nat)
  | bytes (o : List Octet)
  deriving DecidableEq, Repr

/-- The operand writes a lower bound. -/
def AsmOperand.isLb : AsmOperand → Bool
  | .lb _ => true
  | .ub _ | .v _ | .b _ | .bits _ | .octets _ | .n _ | .bytes _ => false

/-- The operand writes an upper bound. -/
def AsmOperand.isUb : AsmOperand → Bool
  | .ub _ => true
  | .lb _ | .v _ | .b _ | .bits _ | .octets _ | .n _ | .bytes _ => false

/-- The operand, put into its field of the operand record (R62, R69). -/
def AsmOperand.put (op : Operands) : AsmOperand → Operands
  | .lb i => { op with lb := i }
  | .ub i => { op with ub := i }
  | .v i => { op with v := i }
  | .b i => { op with b := i }
  | .bits s => { op with bits := s }
  | .octets o => { op with octets := o }
  | .n k => { op with n := k }
  | .bytes o => { op with bytes := o }

/-- The opcode with this mnemonic (R63). -/
def opcOfMnemonic (m : String) : Option Opc := Opc.all.find? fun o => o.mnemonic == m

/-- The command a line stands for (R69): the word from the mnemonic, the suffixes and which bounds
are written, the operand record from the operands. A mnemonic of no command has none. DESIGN CHOICE
(log 22): where one operand is written more than once the last one counts, and an operand that is not
written is 0 or empty; R69 and D39 do not say. -/
def assemble (mnemonic : String) (n e x : Bool) (ops : List AsmOperand) : Option Command :=
  (opcOfMnemonic mnemonic).map fun o =>
    { cw := wordOf o.code
        { n := n, e := e, x := x, u := ops.any AsmOperand.isUb, l := ops.any AsmOperand.isLb }
      op := ops.foldl AsmOperand.put {} }

end Sys2Proof.Machine
end

