-- ==== Sys2Proof/Machine/Units.lean ====
section
/-! DEFINITION. Several units (spec/10_state.md R31, spec/60_exceptions.md R232): the product of
independent single units, stepped in any order the Host likes. A unit is known by the Host's handle,
here its place in the list. -/

namespace Sys2Proof.Machine

/-- A new unit comes into existence in its reset state (R232, R240). -/
def addUnit (p : Params) (us : List State) : List State := us ++ [State.resetWith p]

/-- The Host issues a command to the unit with handle `k` (R250); a handle of no unit changes
nothing. -/
def issueTo (k : Nat) (c : Command) (us : List State) : List State :=
  us.modify k fun s => { s with pending := s.pending ++ [c] }

/-- Unit `k` executes its next command; no answer where there is no such unit or it has no
command. -/
def stepUnit (k : Nat) (us : List State) : Option (List State) :=
  match us[k]? with
  | none => none
  | some s =>
    match step s with
    | .next t => some (us.set k t)
    | .fault _ => none
    | .refused _ => none

end Sys2Proof.Machine
end

