-- ==== Sys2Proof/Safety.lean ====
section
/-! DEFINITION. What counts as a successful run (spec/70_reset_and_hazards.md R242), the invariant of a
unit that was brought up from reset (spec/10_state.md R23 to R28), and the terms the statements use:
which mode a command needs, the states a command leaves, and the parts of a wire format. -/

namespace Sys2Proof.Machine

/-- A run is successful when FAULT_LOG is empty and REFUSED is false (R242, R28). -/
abbrev State.successful (s : State) : Prop := s.faultLog = [] ∧ s.refused = false

/-- An outcome is a refusal (R226). -/
def CmdOutcome.isRefusal : CmdOutcome → Bool
  | .refused _ => true
  | .ok _ | .err _ => false

/-- The errors of a sequence of outcomes, each with its issue index, when the first outcome is that
of the command with index `i` (R28). -/
def errorsFrom : Nat → List CmdOutcome → List (ErrKind × Nat)
  | _, [] => []
  | i, .err k :: rest => (k, i) :: errorsFrom (i + 1) rest
  | i, .ok _ :: rest => errorsFrom (i + 1) rest
  | i, .refused _ :: rest => errorsFrom (i + 1) rest

/-- The value RES holds after a command (R26). -/
def CmdOutcome.result : CmdOutcome → Option Value
  | .ok x => some x
  | .err _ | .refused _ => none

/-- The buffers a unit holds in each mode (R23 to R25, R110 to R113): a decode buffer is whole octets
with the cursor inside it, and a buffer the mode does not own is empty. -/
structure State.BuffersInv (s : State) : Prop where
  wbuf_owned : s.mode ≠ .enc → s.wbuf = []
  rbuf_owned : s.mode ≠ .dec → s.rbuf = [] ∧ s.cur = 0
  rbuf_octets : s.rbuf.length % 8 = 0
  cur_inside : s.cur ≤ s.rbuf.length

/-- The error and run records agree with the outcomes returned (R26 to R28). -/
structure State.RecordsInv (s : State) : Prop where
  issued_count : s.outcomes.length = s.issued
  fault_log : s.faultLog = errorsFrom 1 s.outcomes
  refused_mark : s.refused = s.outcomes.any CmdOutcome.isRefusal
  result_port : s.res = s.outcomes.getLast?.bind CmdOutcome.result
  error_logged : ∀ k, s.err = some k → ∃ i, (k, i) ∈ s.faultLog
  error_mode : s.err ≠ none → s.mode ≠ .idle

/-- The invariant of a unit between commands. -/
structure State.Inv (s : State) : Prop where
  buffers : s.BuffersInv
  records : s.RecordsInv

/-! ### What a command needs and what it leaves -/

/-- The mode a command needs (R66); `none` for NEW_ENC, NEW_DEC and RELEASE, which every mode
accepts. -/
def requiredMode : Instr → Option Mode
  | .newEnc | .newDec _ | .release => none
  | .finish | .appendBits _ | .alignE | .encBool _ | .encInt _ _ _ _ _ | .encEnum _ _ _ _ _
  | .encLen _ _ _ _ | .encBitStr _ _ _ _ _ | .encOctStr _ _ _ _ _ | .encVisStr _ _ _ _ _
  | .encPrtStr _ _ _ _ _ | .encUtf8Str _ _ _ _ _ | .encChoice _ _ _ _ _ | .encSeqHdr _ _ _ =>
    some .enc
  | .readBit | .readBits _ | .alignD | .decBool | .decInt _ _ _ | .decEnum _ _ _ | .decLen _ _ _
  | .decBitStr _ _ _ | .decOctStr _ _ _ | .decVisStr _ _ _ | .decPrtStr _ _ _ | .decUtf8Str _ _ _
  | .decChoice _ _ _ | .decSeqHdr _ _ => some .dec

/-- The unit is in mode `m` and no error stands: commands that need `m` are taken (R66, R224). -/
abbrev State.Ready (m : Mode) (s : State) : Prop := s.mode = m ∧ s.err = none

/-- After `Ok(Unit)` of an encode command that leaves WBUF at `w` (R24, R26): nothing else changes. -/
def State.afterEncode (w : Bits) (s : State) : State :=
  { s with wbuf := w, res := some .unit, outcomes := s.outcomes ++ [.ok .unit] }

/-- After `Ok(x)` of a decode command that leaves CUR at `c` (R25, R26): nothing else changes. -/
def State.afterDecode (x : Value) (c : Nat) (s : State) : State :=
  { s with cur := c, res := some x, outcomes := s.outcomes ++ [.ok x] }

/-- After `Err(k)` with diagnostic `d` (R220): nothing else changes. -/
def State.afterError (k : ErrKind) (d : String) (s : State) : State :=
  { s with
    err := some k, diag := d, faultLog := s.faultLog ++ [(k, s.issued)], res := none
    outcomes := s.outcomes ++ [.err k] }

/-- After `Refused(r)` (R226, R26): nothing else changes. -/
def State.afterRefusal (r : Reason) (s : State) : State :=
  { s with refused := true, res := none, outcomes := s.outcomes ++ [.refused r] }

/-- The encode command `i` fails with `k`: some diagnostic, and everything else as R220 says. -/
def EncodeFails (i : Instr) (k : ErrKind) (s : State) : Prop :=
  ∃ d, exec i s = .next (s.afterError k d)

/-- The decode command `i` fails with `k`: some diagnostic, and CUR somewhere ahead in the buffer
(R227). -/
def DecodeFails (i : Instr) (k : ErrKind) (s : State) : Prop :=
  ∃ c d, s.cur ≤ c ∧ c ≤ s.rbuf.length ∧ exec i s = .next (({ s with cur := c } : State).afterError k d)

/-! ### Parts of a wire format -/

/-- The marker bits a command with flag X writes (R109). -/
def marker (x : Bool) : Bits := if x then [false] else []

/-- The marker at the cursor, if flag X calls for one, is 0 (R109). -/
abbrev MarkerClear (x : Bool) (s : State) : Prop := x = true → s.rbuf[s.cur]? = some false

/-- The zero bits from bit count `n` to the next octet boundary (R12, R102). -/
def padBits (n : Nat) : Bits := List.replicate ((8 - n % 8) % 8) false

/-- `hdr` is a one-octet or two-octet form of the unconstrained length `n` (R152, R153); a two-octet
form may hold a length below 128. -/
def LengthForm (n : Nat) (hdr : Bits) : Prop :=
  (n < 128 ∧ hdr = false :: uintBits n 7) ∨ (n < 16384 ∧ hdr = true :: false :: uintBits n 14)

/-- The form of an unconstrained length that the encoder writes (R152). -/
def shortestLength (n : Nat) : Bits :=
  if n < 128 then false :: uintBits n 7 else true :: false :: uintBits n 14

/-- The buffer ends inside the form of an unconstrained length that begins at `start`: no bit is left
there, or the one octet that starts 0 is not whole, or the two octets that start 10 are not whole, the
second bit of the form included (R153, R223). -/
abbrev FormCutShort (rbuf : Bits) (start : Nat) : Prop :=
  rbuf.length ≤ start ∨
  (rbuf[start]? = some false ∧ rbuf.length < start + 8) ∨
  (rbuf[start]? = some true ∧ rbuf[start + 1]? ≠ some true ∧ rbuf.length < start + 16)

/-- The buffer ends inside the padding at the cursor or the unconstrained length after it (R106,
R153, R223). -/
abbrev LengthCutShort (rbuf : Bits) (cur : Nat) : Prop :=
  FormCutShort rbuf (cur + (8 - cur % 8) % 8)

/-- A field of `n` bits at the cursor, read as a number, or Exhausted (R9, R104). -/
def fieldAt (rbuf : Bits) (cur n : Nat) : Except ErrKind (Nat × Nat) :=
  if cur + n ≤ rbuf.length then .ok (uint ((rbuf.drop cur).take n), cur + n) else .error .exhausted

/-- A field of `n` bits after the padding at the cursor (R104, R106). -/
def alignedFieldAt (rbuf : Bits) (cur n : Nat) : Except ErrKind (Nat × Nat) :=
  fieldAt rbuf (cur + (8 - cur % 8) % 8) n

/-- The present bounds hold of `v` (R222). -/
abbrev InBounds (lb ub : Option Int) (v : Int) : Prop :=
  (∀ l, lb = some l → l ≤ v) ∧ ∀ u, ub = some u → v ≤ u

/-- A command's value has the type R26 gives it. -/
def hasResultType : Instr → Value → Bool
  | .readBit, .bool _ | .decBool, .bool _ => true
  | .readBits _, .bits _ | .decBitStr _ _ _, .bits _ | .decSeqHdr _ _, .bits _ => true
  | .decInt _ _ _, .int _ | .decEnum _ _ _, .int _ | .decChoice _ _ _, .int _
  | .decLen _ _ _, .int _ => true
  | .decOctStr _ _ _, .octets _ | .decVisStr _ _ _, .octets _ | .decPrtStr _ _ _, .octets _
  | .decUtf8Str _ _ _, .octets _ | .finish, .octets _ => true
  | .newEnc, .unit | .newDec _, .unit | .release, .unit | .appendBits _, .unit | .alignE, .unit
  | .alignD, .unit | .encBool _, .unit | .encInt _ _ _ _ _, .unit | .encEnum _ _ _ _ _, .unit
  | .encLen _ _ _ _, .unit | .encBitStr _ _ _ _ _, .unit | .encOctStr _ _ _ _ _, .unit
  | .encVisStr _ _ _ _ _, .unit | .encPrtStr _ _ _ _ _, .unit | .encUtf8Str _ _ _ _ _, .unit
  | .encChoice _ _ _ _ _, .unit | .encSeqHdr _ _ _, .unit => true
  | _, _ => false

/-- The decode command that mirrors an encode command with the same bounds and flags (R243), and the
value it must return. Commands with E = 1 or N = 1, which never succeed, have none, nor have the
lifecycle and decode commands. -/
def mirror : Instr → Option (Instr × Value)
  | .appendBits bits => some (.readBits bits.length, .bits bits)
  | .alignE => some (.alignD, .unit)
  | .encBool b => some (.decBool, .bool b)
  | .encInt false x lb ub v => some (.decInt x lb ub, .int v)
  | .encEnum false x lb ub v => some (.decEnum x lb ub, .int v)
  | .encLen false lb ub v => some (.decLen false lb ub, .int v)
  | .encBitStr false x lb ub bits => some (.decBitStr x lb ub, .bits bits)
  | .encOctStr false x lb ub o => some (.decOctStr x lb ub, .octets o)
  | .encVisStr false x lb ub o => some (.decVisStr x lb ub, .octets o)
  | .encPrtStr false x lb ub o => some (.decPrtStr x lb ub, .octets o)
  | .encUtf8Str false x lb ub o => some (.decUtf8Str x lb ub, .octets o)
  | .encChoice false x lb ub v => some (.decChoice x lb ub, .int v)
  | .encSeqHdr false x bits => some (.decSeqHdr x bits.length, .bits bits)
  | _ => none

/-- `v` fits in `k` unsigned octets (R11, R122). -/
def fitsUnsigned (k : Nat) (v : Int) : Bool := decide (v < 2 ^ (8 * k))

/-- `v` fits in `k` octets of two's complement (R11, R124). -/
def fitsTwos (k : Nat) (v : Int) : Bool := decide (-2 ^ (8 * k - 1) ≤ v ∧ v < 2 ^ (8 * k - 1))

/-- The error an encode command must report, by the order of R225: N = 1, E = 1, the bounds, the
16384 limit (R221, R222); `none` where it must succeed. -/
def encodeFault : Instr → Option ErrKind
  | .encInt e _ lb ub v =>
    if e then some .unimplemented
    else if ¬ InBounds lb ub v then some .boundsViolation
    else
      match lb, ub with
      | some _, some _ => none
      | some l, none => if fitsUnsigned 16383 (v - l) then none else some .unimplemented
      | none, _ => if fitsTwos 16383 v then none else some .unimplemented
  | .encLen n lb ub v =>
    if n then some .unimplemented
    else if ¬ InBounds lb ub v then some .boundsViolation
    else if (∀ u, ub = some u → 65536 ≤ u) ∧ 16384 ≤ v then some .unimplemented
    else none
  | .encEnum e _ lb ub v | .encChoice e _ lb ub v =>
    if e then some .unimplemented
    else if ¬ (lb ≤ v ∧ v ≤ ub) then some .boundsViolation
    else none
  | .encBitStr e _ lb ub bits =>
    if e then some .unimplemented
    else if ¬ InBounds lb ub bits.length then some .boundsViolation
    else if 16384 ≤ bits.length then some .unimplemented
    else none
  | .encOctStr e _ lb ub o =>
    if e then some .unimplemented
    else if ¬ InBounds lb ub o.length then some .boundsViolation
    else if 16384 ≤ o.length then some .unimplemented
    else none
  | .encVisStr e _ lb ub o | .encPrtStr e _ lb ub o | .encUtf8Str e _ lb ub o =>
    if e then some .unimplemented
    else if ¬ InBounds lb ub o.length then some .boundsViolation
    else if (∀ u, ub = some u → 65536 ≤ u) ∧ 16384 ≤ o.length then some .unimplemented
    else none
  | .encSeqHdr e _ _ => if e then some .unimplemented else none
  | _ => none

/-! ### The assembler's operand record -/

/-- Two operands of an assembly line write the same field (R69). -/
def AsmOperand.sameField : AsmOperand → AsmOperand → Bool
  | .lb _, .lb _ | .ub _, .ub _ | .v _, .v _ | .b _, .b _ | .bits _, .bits _
  | .octets _, .octets _ | .n _, .n _ | .bytes _, .bytes _ => true
  | _, _ => false

/-- The operand's value stands in its field of the operand record (R62, R69). -/
def AsmOperand.StandsIn (op : Operands) : AsmOperand → Prop
  | .lb i => op.lb = i
  | .ub i => op.ub = i
  | .v i => op.v = i
  | .b i => op.b = i
  | .bits s => op.bits = s
  | .octets o => op.octets = o
  | .n k => op.n = k
  | .bytes o => op.bytes = o

end Sys2Proof.Machine
end

