-- ==== Sys2Proof/Certificates/Slice0/Obligations.lean ====
section
/-! DEFINITION. The statements for the provers, from the numbered rules of spec/. Each docstring names
the rules and, where a statement rests on the model's own choice, the log entry. -/

open Sys2Proof Sys2Proof.Machine

/-! ### Encoding -/

/-- A row of spec/opcode_table.json: mnemonic, match and mask. -/
structure Sys2Proof.OpcodeRow where
  mnemonic : String
  value : Word
  mask : Word

/-- The rows of spec/opcode_table.json (R63, R64). -/
def Sys2Proof.opcodeRows : List OpcodeRow :=
  [⟨"NEW_ENC", 0x0100#16, 0xFFFF#16⟩, ⟨"NEW_DEC", 0x0200#16, 0xFFFF#16⟩,
    ⟨"FINISH", 0x0300#16, 0xFFFF#16⟩, ⟨"RELEASE", 0x0400#16, 0xFFFF#16⟩,
    ⟨"APPEND_BITS", 0x0800#16, 0xFFFF#16⟩, ⟨"ALIGN_E", 0x0900#16, 0xFFFF#16⟩,
    ⟨"READ_BIT", 0x0A00#16, 0xFFFF#16⟩, ⟨"READ_BITS", 0x0B00#16, 0xFFFF#16⟩]
  ++ [⟨"ALIGN_D", 0x0C00#16, 0xFFFF#16⟩, ⟨"ENC_BOOL", 0x1000#16, 0xFFFF#16⟩,
    ⟨"DEC_BOOL", 0x1100#16, 0xFFFF#16⟩, ⟨"ENC_INT", 0x1200#16, 0xFFF0#16⟩,
    ⟨"DEC_INT", 0x1300#16, 0xFFF8#16⟩, ⟨"ENC_ENUM", 0x1403#16, 0xFFF3#16⟩,
    ⟨"DEC_ENUM", 0x1503#16, 0xFFFB#16⟩, ⟨"ENC_LEN", 0x1600#16, 0xFFEC#16⟩]
  ++ [⟨"DEC_LEN", 0x1700#16, 0xFFEC#16⟩, ⟨"ENC_BITSTR", 0x1800#16, 0xFFF0#16⟩,
    ⟨"DEC_BITSTR", 0x1900#16, 0xFFF8#16⟩, ⟨"ENC_OCTSTR", 0x1A00#16, 0xFFF0#16⟩,
    ⟨"DEC_OCTSTR", 0x1B00#16, 0xFFF8#16⟩, ⟨"ENC_VISSTR", 0x1C00#16, 0xFFF0#16⟩,
    ⟨"DEC_VISSTR", 0x1D00#16, 0xFFF8#16⟩, ⟨"ENC_PRTSTR", 0x1E00#16, 0xFFF0#16⟩]
  ++ [⟨"DEC_PRTSTR", 0x1F00#16, 0xFFF8#16⟩, ⟨"ENC_UTF8STR", 0x2000#16, 0xFFF0#16⟩,
    ⟨"DEC_UTF8STR", 0x2100#16, 0xFFF8#16⟩, ⟨"ENC_CHOICE", 0x2203#16, 0xFFF3#16⟩,
    ⟨"DEC_CHOICE", 0x2303#16, 0xFFFB#16⟩, ⟨"ENC_SEQHDR", 0x2400#16, 0xFFF3#16⟩,
    ⟨"DEC_SEQHDR", 0x2500#16, 0xFFFB#16⟩]

/-- The decoder gives back every command the encoder writes, with every flag and every operand at
every value (R60 to R64). -/
def Obligations.DecodeEncodeRoundTrip : Prop := ∀ i : Instr, decode (encode i) = .ok i

/-- A legal word has one meaning: encoding what the decoder read gives the word back, and the operand
record the encoder writes decodes with it to the same command (R61 to R64). -/
def Obligations.DecodedWordReencodes : Prop :=
  ∀ (c : Command) (i : Instr), decode c = .ok i →
    (encode i).cw = c.cw ∧ decode { cw := c.cw, op := (encode i).op } = .ok i

/-- The decoder accepts exactly the words of the opcode table, each as the command of its row. -/
def Obligations.LegalWordsAreTableRows : Prop :=
  (∀ (c : Command) (row : OpcodeRow), row ∈ opcodeRows →
    (c.cw &&& row.mask = row.value ↔ ∃ i, decode c = .ok i ∧ i.opc.mnemonic = row.mnemonic)) ∧
  ∀ (c : Command) (i : Instr), decode c = .ok i →
    ∃ row ∈ opcodeRows, c.cw &&& row.mask = row.value

/-- Four command words the spec spells out (R69) decode to their commands, and three it calls illegal
(R65; the vectors Z4, Z5 and Z7) are rejected, each on its own ground. -/
def Obligations.SpecWordsDecode : Prop :=
  decode { cw := 0x1203, op := { lb := 0, ub := 7, v := 5 } } =
    .ok (.encInt false false (some 0) (some 7) 5) ∧
  decode { cw := 0x1207, op := { lb := 0, ub := 7, v := 5 } } =
    .ok (.encInt false true (some 0) (some 7) 5) ∧
  decode { cw := 0x1610, op := { v := 3 } } = .ok (.encLen true none none 3) ∧
  decode { cw := 0x2404, op := { bits := [true, false] } } =
    .ok (.encSeqHdr false true [true, false]) ∧
  decode { cw := 0x0500 } = .error .reservedOpcode ∧
  decode { cw := 0x1020 } = .error .reservedBits ∧
  decode { cw := 0x1308 } = .error .illegalFlags

/-- Two operand records agree on every field the command word's command reads (the table of R62). -/
def Sys2Proof.AgreeWhereRead (cw : Word) (a b : Operands) : Prop :=
  let o := opcOf (opcField cw)
  ((flagsField cw).l = true → a.lb = b.lb) ∧
  ((flagsField cw).u = true → a.ub = b.ub) ∧
  (o ∈ [some .encInt, some .encEnum, some .encLen, some .encChoice] → a.v = b.v) ∧
  (o = some .encBool → a.b = b.b) ∧
  (o ∈ [some .appendBits, some .encBitStr, some .encSeqHdr] → a.bits = b.bits) ∧
  (o ∈ [some .encOctStr, some .encVisStr, some .encPrtStr, some .encUtf8Str] →
    a.octets = b.octets) ∧
  (o ∈ [some .readBits, some .decSeqHdr] → a.n = b.n) ∧
  (o = some .newDec → a.bytes = b.bytes)

/-- An operand field a command does not read never affects what a step does (R62). -/
def Obligations.IgnoredOperandsNeverMatter : Prop :=
  ∀ (s : State) (cw : Word) (a b : Operands) (rest : List Command), AgreeWhereRead cw a b →
    step { s with pending := { cw := cw, op := a } :: rest } =
      step { s with pending := { cw := cw, op := b } :: rest }

/-- The assembler's command. Its word has the mnemonic's opcode, reserved bits 0, the suffixes as
written, and the bound flags set exactly when the bounds are written; each operand written stands in
its own field of the operand record (R62, R69). That the last one counts where a field is written
more than once, and that a field not written is 0 or empty, is the model's choice (log 22). -/
def Obligations.AssembledWordFields : Prop :=
  ∀ (o : Opc) (n e x : Bool) (ops : List AsmOperand), ∃ c,
    assemble o.mnemonic n e x ops = some c ∧ opcField c.cw = o.code ∧ rsvField c.cw = 0 ∧
    flagsField c.cw = { n := n, e := e, x := x, u := ops.any AsmOperand.isUb,
                        l := ops.any AsmOperand.isLb } ∧
    c.cw.toNat = o.code.toNat * 256 + n.toNat * 16 + e.toNat * 8 + x.toNat * 4 +
      (ops.any AsmOperand.isUb).toNat * 2 + (ops.any AsmOperand.isLb).toNat ∧
    (∀ (before after : List AsmOperand) (a : AsmOperand), ops = before ++ a :: after →
      (∀ b ∈ after, a.sameField b = false) → a.StandsIn c.op) ∧
    ∀ a ∈ [AsmOperand.lb 0, .ub 0, .v 0, .b false, .bits [], .octets [], .n 0, .bytes []],
      (∀ b ∈ ops, a.sameField b = false) → a.StandsIn c.op

/-! ### The step, reset and runs -/

/-- When the Host's next command is legal, a step is `exec` of it in the state with the command taken
from the Host and counted, and nothing else around it (R3, R28). -/
def Obligations.StepRunsDecodedCommand : Prop :=
  ∀ (s : State) (c : Command) (rest : List Command) (i : Instr),
    s.pending = c :: rest → decode c = .ok i →
    step s = exec i { s with pending := rest, issued := s.issued + 1 }

/-- An illegal command word is refused with IllegalCommand before any other check, even after an
error and in any mode, and changes nothing but the refusal's own marks (R65, R68). That RES then
holds no value is R26 (log 9). -/
def Obligations.StepRefusesIllegalWord : Prop :=
  ∀ (s : State) (c : Command) (rest : List Command),
    s.pending = c :: rest →
    (opcOf (opcField c.cw) = none ∨ rsvField c.cw ≠ 0 ∨
      (∃ o, opcOf (opcField c.cw) = some o ∧ o.flagRow.admits (flagsField c.cw) = false)) →
    step s = .next (State.afterRefusal .illegalCommand
      { s with pending := rest, issued := s.issued + 1 })

/-- The machine stops only when the Host has no further command (R242; the stop is the model's
choice, log 3): no command, legal or not, ever stops it. -/
def Obligations.StepStopsOnlyAtEndOfRun : Prop :=
  ∀ s : State, (s.pending = [] → step s = .fault .endOfRun) ∧
    (s.pending ≠ [] → ∃ t, step s = .next t)

/-- Every piece of state is at the value R32 gives it. DIAG, which R32 leaves open, is not named. -/
def Obligations.ResetState : Prop :=
  State.reset.mode = .idle ∧ State.reset.wbuf = [] ∧ State.reset.rbuf = [] ∧ State.reset.cur = 0 ∧
  State.reset.res = none ∧ State.reset.err = none ∧ State.reset.faultLog = [] ∧
  State.reset.refused = false

/-- The invariant holds at reset, whatever the OPEN parameters are and whatever commands the Host has
ready. -/
def Obligations.ResetMeetsInvariant : Prop :=
  ∀ (p : Params) (cs : List Command), ({ State.resetWith p with pending := cs } : State).Inv

/-- Every step keeps the invariant: a decode buffer is whole octets with the cursor inside it, a
buffer the mode does not own is empty, and the error register, FAULT_LOG, REFUSED and RES agree with
the outcomes returned (R23 to R28). -/
def Obligations.StepKeepsInvariant : Prop :=
  ∀ s t : State, s.Inv → step s = .next t → t.Inv

/-- A step of one unit changes no other unit, and steps of two units commute (R31). -/
def Obligations.UnitsAreIndependent : Prop :=
  (∀ (us vs : List State) (j k : Nat), j ≠ k → stepUnit k us = some vs → vs[j]? = us[j]?) ∧
  ∀ (us : List State) (j k : Nat), j ≠ k →
    (stepUnit j us).bind (stepUnit k) = (stepUnit k us).bind (stepUnit j)

/-- A step takes exactly one command of the Host, in order, counts it, returns exactly one outcome,
and changes no implementation parameter (R20, R28, R30). -/
def Obligations.StepTakesOneCommand : Prop :=
  ∀ s t : State, step s = .next t →
    t.pending = s.pending.tail ∧ t.issued = s.issued + 1 ∧ t.params = s.params ∧
    ∃ o, t.outcomes = s.outcomes ++ [o]

/-- FAULT_LOG only grows, by the error a command returned with that command's issue index, which counts
every command and is 1 for the first; REFUSED is set by a refusal and never cleared, whatever the
command (R28). The count as a field, 0 at reset, is the model's choice (log 10). -/
def Obligations.RunRecordsNeverCleared : Prop :=
  State.reset.issued = 0 ∧ ∀ s t : State, step s = .next t →
    t.issued = s.issued + 1 ∧
    (t.refused = true ↔ s.refused = true ∨ ∃ r, t.outcomes = s.outcomes ++ [.refused r]) ∧
    ((t.faultLog = s.faultLog ∧ ∀ k, t.outcomes ≠ s.outcomes ++ [.err k]) ∨
      ∃ k, t.outcomes = s.outcomes ++ [.err k] ∧ t.faultLog = s.faultLog ++ [(k, s.issued + 1)])

/-- From an error state, as long as the Host issues none of NEW_ENC, NEW_DEC and RELEASE, every
command is refused, the error stands and no buffer changes, so no output comes of a failed tree
(R224). -/
def Obligations.FailedTreeNeverOutputs : Prop :=
  ∀ (n : Nat) (s t : State), s.err ≠ none →
    (∀ c ∈ s.pending.take n, ∀ i, decode c = .ok i → requiredMode i ≠ none) →
    core.run n s = .next t →
    t.err = s.err ∧ t.mode = s.mode ∧ t.wbuf = s.wbuf ∧ t.rbuf = s.rbuf ∧ t.cur = s.cur ∧
    ∃ os : List CmdOutcome, t.outcomes = s.outcomes ++ os ∧ os.length = n ∧
      ∀ o ∈ os, o.isRefusal = true

/-- A run from reset, over any commands and any number of steps, is successful exactly when every
outcome returned was `Ok` (R242). -/
def Obligations.SuccessfulRunIffAllOk : Prop :=
  ∀ (p : Params) (cs : List Command) (n : Nat) (t : State),
    core.run n { State.resetWith p with pending := cs } = .next t →
    (t.successful ↔ ∀ o ∈ t.outcomes, ∃ x, o = .ok x)

/-- A value tree encoded by one unit is decoded by another: for any commands with a mirror command
(R243), if the run NEW_ENC, the commands, FINISH succeeds and returns the octets `out`, then the run
NEW_DEC of `out` and the mirror commands succeeds and returns exactly the values encoded, under the
same OPEN parameters whatever they are (R128, R241, R242). -/
def Obligations.ValueTreeRoundTrip : Prop :=
  ∀ (p : Params) (es : List Instr) (ds : List (Instr × Value)) (s : State) (out : List Octet),
    es.mapM mirror = some ds →
    core.run (es.length + 2)
      { State.resetWith p with pending := ([.newEnc] ++ es ++ [.finish] : List Instr).map encode } = .next s →
    s.successful → s.res = some (.octets out) →
    ∃ t, core.run (ds.length + 1)
        { State.resetWith p with pending := ([.newDec out] ++ ds.map Prod.fst : List Instr).map encode } =
          .next t ∧
      t.successful ∧ t.outcomes = .ok .unit :: ds.map fun d => .ok d.2

/-! ### Refusals and errors, for every command -/

/-- After the word, the checks run in the order error, mode, operands, and the first that fails
decides (R68), for every command but NEW_ENC, NEW_DEC and RELEASE (R66). A refusal changes nothing
but REFUSED, RES and the outcome (R226, R26; log 9). -/
def Obligations.RefusalChecksInOrder : Prop :=
  ∀ (i : Instr) (m : Mode) (s : State), requiredMode i = some m →
    (s.err ≠ none → exec i s = .next (s.afterRefusal .afterError)) ∧
    (s.err = none → s.mode ≠ m → exec i s = .next (s.afterRefusal .modeMismatch)) ∧
    (s.Ready m → i.wellFormed = false → exec i s = .next (s.afterRefusal .badOperand))

/-- A command that passes the checks of R68 is never refused: its outcome is `Ok` or `Err`. -/
def Obligations.AdmittedCommandIsNotRefused : Prop :=
  ∀ (i : Instr) (s t : State), (∀ m, requiredMode i = some m → s.Ready m) → i.wellFormed = true →
    exec i s = .next t →
    t.refused = s.refused ∧
    ((∃ x, t.outcomes = s.outcomes ++ [.ok x]) ∨ ∃ k, t.outcomes = s.outcomes ++ [.err k])

/-- Which error an encode command reports, in the order of R225: N = 1, E = 1, the bounds, the 16384
limit. It reports that error and leaves WBUF unchanged (R227), or, with none due, it succeeds and
extends WBUF (R24). FINISH is not an encode command with errors of its own and is left to its own
statement. -/
def Obligations.EncodeFaultPriority : Prop :=
  ∀ (i : Instr) (s : State), requiredMode i = some .enc → i ≠ .finish → s.Ready .enc →
    i.wellFormed = true →
    (∀ k, encodeFault i = some k → EncodeFails i k s) ∧
    (encodeFault i = none → ∃ new, exec i s = .next (s.afterEncode (s.wbuf ++ new)))

/-- A decode command that raises an error changes ERR, DIAG, FAULT_LOG, RES and the outcome as R220
says, keeps the mode and both buffers, and leaves CUR somewhere in `[CUR_before, |RBUF|]` (R227). -/
def Obligations.DecodeErrorState : Prop :=
  ∀ (i : Instr) (s t : State) (k : ErrKind), requiredMode i = some .dec →
    s.cur ≤ s.rbuf.length → exec i s = .next t → t.outcomes = s.outcomes ++ [.err k] →
    DecodeFails i k s

/-- MODE is written only by NEW_ENC, NEW_DEC, FINISH and RELEASE (R23). -/
def Obligations.ModeWrittenOnlyByLifecycle : Prop :=
  ∀ (i : Instr) (s t : State), i ≠ .newEnc → (∀ b, i ≠ .newDec b) → i ≠ .finish → i ≠ .release →
    exec i s = .next t → t.mode = s.mode

/-- No encode or decode command removes, reorders or overwrites a bit of WBUF: the old WBUF is a
prefix of the new one (R24). Only an encode command that succeeds changes it at all. -/
def Obligations.EncodeBufferOnlyExtended : Prop :=
  ∀ (i : Instr) (s t : State), requiredMode i ≠ none → i ≠ .finish → exec i s = .next t →
    s.wbuf <+: t.wbuf ∧
    (t.wbuf ≠ s.wbuf → requiredMode i = some .enc ∧ t.outcomes = s.outcomes ++ [.ok .unit])

/-- RBUF is set only by NEW_DEC and dropped only by the other lifecycle commands; every other command
keeps it, and CUR only increases and stays inside it (R25). -/
def Obligations.DecodeBufferFixedCursorForward : Prop :=
  ∀ (i : Instr) (s t : State), requiredMode i ≠ none → exec i s = .next t →
    t.rbuf = s.rbuf ∧ s.cur ≤ t.cur ∧ (s.cur ≤ s.rbuf.length → t.cur ≤ t.rbuf.length) ∧
    (requiredMode i = some .enc → t.cur = s.cur)

/-- After any command RES holds the value of an `Ok(x)` outcome, of the type R26 gives the command,
and no value after `Err` or `Refused` (R26; over R226 on a refusal, log 9). -/
def Obligations.ResultPortTyped : Prop :=
  ∀ (i : Instr) (s t : State), exec i s = .next t →
    ∃ o, t.outcomes = s.outcomes ++ [o] ∧ t.res = o.result ∧
      ∀ x, o = .ok x → hasResultType i x = true

/-- A command that reads a marker of 1 raises Unimplemented, whatever follows the marker (R109, R221,
R225): every decode command with flag X, for every bounds of a number (R126) and every lower bound of
a length that R67 admits. -/
def Obligations.MarkerOneUnimplemented : Prop :=
  ∀ (s : State) (lb ub : Option Int) (l u : Int) (n : Nat), s.Ready .dec →
    s.rbuf[s.cur]? = some true →
    (∀ i ∈ [.decInt true lb ub, .decEnum true l u, .decChoice true l u, .decSeqHdr true n],
      DecodeFails i .unimplemented s) ∧
    (lengthBoundOk lb = true →
      ∀ i ∈ [.decBitStr true lb ub, .decOctStr true lb ub, .decVisStr true lb ub,
        .decPrtStr true lb ub, .decUtf8Str true lb ub], DecodeFails i .unimplemented s)

/-! ### Notation and status registers -/

/-- The status registers mirror the state: S0's four fields, S1 and S2 by mode, S3, and S0 to S2 are 0
at reset (R29). -/
def Obligations.StatusRegisters : Prop :=
  (readStatus .s0 State.reset = .word 0 ∧ readStatus .s1 State.reset = .nat 0 ∧
    readStatus .s2 State.reset = .nat 0) ∧
  ∀ s : State, ∃ w : BitVec 32, readStatus .s0 s = .word w ∧
    (w.extractLsb' 0 2).toNat =
      (match s.mode with | .idle => 0 | .enc => 1 | .dec => 2) ∧
    (w.extractLsb' 2 2).toNat =
      (match s.err with
        | none => 0
        | some .boundsViolation => 1
        | some .unimplemented => 2
        | some .exhausted => 3) ∧
    w.getLsbD 4 = s.refused ∧ w.extractLsb' 5 27 = 0 ∧
    readStatus .s1 s = .nat
      (match s.mode with | .idle => 0 | .enc => s.wbuf.length | .dec => s.cur) ∧
    readStatus .s2 s = .nat
      (match s.mode with | .idle => 0 | .enc => s.wbuf.length | .dec => s.rbuf.length) ∧
    readStatus .s3 s = .opaq s.diag

/-- `uint_bits(v, k)` puts bit `k-1-i` of v at index i; `uint(s)` is the sum of `s[i]·2^(|s|-1-i)`;
and each inverts the other (R9). `twos_bits(v, k)` is `uint_bits(v mod 2^k, k)`, and `sint`, which
takes `2^|s|` off when the first bit is 1, inverts it (R10). The most significant bit first in wide
fields is the spec's general knowledge (G2, log 15). -/
def Obligations.NumberFieldsMsbFirst : Prop :=
  (∀ v k : Nat, (uintBits v k).length = k ∧
    ∀ i, i < k → (uintBits v k)[i]? = some (v.testBit (k - 1 - i))) ∧
  (∀ s : Bits, uint s = ∑ i : Fin s.length, (s[i]).toNat * 2 ^ (s.length - 1 - i.val)) ∧
  (∀ v k : Nat, v < 2 ^ k → uint (uintBits v k) = v) ∧
  (∀ s : Bits, uintBits (uint s) s.length = s) ∧
  (∀ (v : Int) (k : Nat), 1 ≤ k → -2 ^ (k - 1) ≤ v → v < 2 ^ (k - 1) →
    twosBits v k = uintBits (v % 2 ^ k).toNat k ∧ sint (twosBits v k) = v) ∧
  ∀ s : Bits, sint s = if s[0]? = some true then (uint s : Int) - 2 ^ s.length else uint s

/-- `nbits`, `nonneg_octets` and `twos_octets` are the least counts R11 asks for. -/
def Obligations.SizeFunctionsAreLeast : Prop :=
  (∀ r : Nat, 1 ≤ r → IsLeast {k | r ≤ 2 ^ k} (nbits r)) ∧
  (∀ v : Nat, IsLeast {k | 1 ≤ k ∧ v < 2 ^ (8 * k)} (nonnegOctets v)) ∧
  ∀ v : Int, IsLeast {k | 1 ≤ k ∧ -2 ^ (8 * k - 1) ≤ v ∧ v < 2 ^ (8 * k - 1)} (twosOctets v)

/-- Octet k of a byte sequence is bits 8k to 8k+7, the most significant bit first: in the buffer
NEW_DEC makes and in the output of FINISH (R41). -/
def Obligations.OctetViewMsbFirst : Prop :=
  (∀ (s t : State) (bytes : List Octet) (k j : Nat) (o : Octet), exec (.newDec bytes) s = .next t →
    bytes[k]? = some o → j < 8 → t.rbuf[8 * k + j]? = some (o.getMsbD j)) ∧
  ∀ (s t : State) (out : List Octet) (k j : Nat) (o : Octet), s.Ready .enc →
    exec .finish s = .next t → t.res = some (.octets out) → out[k]? = some o → j < 8 →
    o.getMsbD j = s.wbuf.getD (8 * k + j) false

/-! ### Lifecycle and bit-buffer commands -/

/-- NEW_ENC, NEW_DEC and RELEASE, in every state (R110, R111, R113). -/
def Obligations.CreateAndReleaseBuffers : Prop :=
  ∀ (s : State) (bytes : List Octet),
    exec .newEnc s = .next { s with
      mode := .enc, wbuf := [], rbuf := [], cur := 0, err := none
      res := some .unit, outcomes := s.outcomes ++ [.ok .unit] } ∧
    exec (.newDec bytes) s = .next { s with
      mode := .dec, wbuf := [], rbuf := octetsToBits bytes, cur := 0, err := none
      res := some .unit, outcomes := s.outcomes ++ [.ok .unit] } ∧
    (octetsToBits bytes).length = 8 * bytes.length ∧
    exec .release s = .next { s with
      mode := .idle, wbuf := [], rbuf := [], cur := 0, err := none
      res := some .unit, outcomes := s.outcomes ++ [.ok .unit] }

/-- FINISH returns the octets of WBUF with the last one zero-padded, `(|WBUF| + 7) div 8` of them, and
returns the unit to IDLE with an empty WBUF (R112). -/
def Obligations.FinishReturnsOctets : Prop :=
  ∀ s : State, s.Ready .enc → ∃ out : List Octet,
    exec .finish s = .next { s with
      mode := .idle, wbuf := [], res := some (.octets out)
      outcomes := s.outcomes ++ [.ok (.octets out)] } ∧
    octetsToBits out = s.wbuf ++ padBits s.wbuf.length ∧
    out.length = (s.wbuf.length + 7) / 8

/-- APPEND_BITS appends its bits verbatim (R101); ALIGN_E pads to the next octet boundary with 0 to 7
zero bits (R102, R103); ENC_BOOL appends one bit, 1 for true (R170). -/
def Obligations.AppendAlignAndBool : Prop :=
  ∀ (s : State) (bits : Bits) (b : Bool), s.Ready .enc →
    exec (.appendBits bits) s = .next (s.afterEncode (s.wbuf ++ bits)) ∧
    exec .alignE s = .next (s.afterEncode (s.wbuf ++ padBits s.wbuf.length)) ∧
    (s.wbuf ++ padBits s.wbuf.length).length % 8 = 0 ∧ (padBits s.wbuf.length).length < 8 ∧
    exec (.encBool b) s = .next (s.afterEncode (s.wbuf ++ [b]))

/-- READ_BIT and DEC_BOOL return the bit at the cursor and consume it; READ_BITS returns the next n
bits and consumes them (R105, R107, R171). -/
def Obligations.RawReads : Prop :=
  ∀ s : State, s.Ready .dec →
    (∀ b, s.rbuf[s.cur]? = some b →
      exec .readBit s = .next (s.afterDecode (.bool b) (s.cur + 1)) ∧
      exec .decBool s = .next (s.afterDecode (.bool b) (s.cur + 1))) ∧
    ∀ n, s.cur + n ≤ s.rbuf.length →
      exec (.readBits n) s =
        .next (s.afterDecode (.bits ((s.rbuf.drop s.cur).take n)) (s.cur + n))

/-- ALIGN_D moves the cursor to the next octet boundary whatever the padding bits are; it cannot fail
in a buffer of whole octets (R106, R108). -/
def Obligations.AlignDecodeCursor : Prop :=
  ∀ s : State, s.Ready .dec → s.rbuf.length % 8 = 0 → s.cur ≤ s.rbuf.length →
    exec .alignD s = .next (s.afterDecode .unit (s.cur + (8 - s.cur % 8) % 8)) ∧
    (s.cur + (8 - s.cur % 8) % 8) % 8 = 0

/-- Fewer bits than requested: READ_BIT, DEC_BOOL, READ_BITS and DEC_SEQHDR raise Exhausted (R105,
R107, R171, R213, R223), and so does ALIGN_D in a buffer that ends before the boundary (R106), and
every decode command with flag X where no bit is left for its marker (R109). -/
def Obligations.ShortBufferExhausted : Prop :=
  ∀ (s : State) (x : Bool) (n : Nat), s.Ready .dec → s.cur ≤ s.rbuf.length →
    (s.cur = s.rbuf.length →
      DecodeFails .readBit .exhausted s ∧ DecodeFails .decBool .exhausted s) ∧
    (s.rbuf.length < s.cur + n → DecodeFails (.readBits n) .exhausted s) ∧
    (MarkerClear x s ∨ s.cur = s.rbuf.length → s.rbuf.length < s.cur + (marker x).length + n →
      DecodeFails (.decSeqHdr x n) .exhausted s) ∧
    (s.rbuf.length < s.cur + (8 - s.cur % 8) % 8 → DecodeFails .alignD .exhausted s) ∧
    (s.cur = s.rbuf.length → ∀ (lb ub : Option Int) (l u : Int),
      (∀ i ∈ [.decInt true lb ub, .decEnum true l u, .decChoice true l u, .decSeqHdr true n],
        DecodeFails i .exhausted s) ∧
      (lengthBoundOk lb = true →
        ∀ i ∈ [.decBitStr true lb ub, .decOctStr true lb ub, .decVisStr true lb ub,
          .decPrtStr true lb ub, .decUtf8Str true lb ub], DecodeFails i .exhausted s))

/-! ### Whole numbers -/

/-- EncCWN's layout by the number of values r, with the offset n, for every setting of the OPEN
parameters; the large form's octet count is itself an EncCWN (R120). The 16-bit field and the large form are the
spec's general knowledge (G3, G5, log 15). -/
def Obligations.EncCwnLayout : Prop :=
  ∀ (p : Params) (lb ub v : Int) (w : Bits), lb ≤ v → v ≤ ub →
    encCwn p lb ub v w =
      (let r := ub - lb + 1
       let n := (v - lb).toNat
       if r = 1 then w
       else if r < 256 ∨ (r = 256 ∧ p.cwn256Aligned = false) then w ++ uintBits n (nbits r.toNat)
       else if r = 256 then w ++ padBits w.length ++ uintBits n 8
       else if r ≤ 65536 then w ++ padBits w.length ++ uintBits n 16
       else
         let K := nonnegOctets (r - 1).toNat
         match p.cwnLargeForm with
         | .x691LengthPrefixed =>
           let k := nonnegOctets n
           let w' := encCwn p 1 K k w
           w' ++ padBits w'.length ++ uintBits n (8 * k)
         | .fixedRangeOctets => w ++ padBits w.length ++ uintBits n (8 * K))

/-- A decoded offset above `ub - lb` is a bounds violation (R121). -/
def Sys2Proof.offsetIn (r : Int) : Except ErrKind (Nat × Nat) → Except ErrKind (Nat × Nat)
  | .ok (n, c) => if (n : Int) ≤ r - 1 then .ok (n, c) else .error .boundsViolation
  | .error k => .error k

/-- DecCWN's reads by the number of values r, its empty-range check before any read and its range
check after, for every setting of the OPEN parameters (R121). The 16-bit field and the large form are
the spec's general knowledge (G3, G5, log 15), and both range checks its own decisions (D15, D33,
log 15). -/
def Obligations.DecCwnLayout : Prop :=
  ∀ (p : Params) (lb ub : Int) (rbuf : Bits) (cur : Nat),
    decCwn p lb ub rbuf cur =
      (let r := ub - lb + 1
       if r < 1 then .error .boundsViolation
       else if r = 1 then .ok (0, cur)
       else if r < 256 ∨ (r = 256 ∧ p.cwn256Aligned = false) then
         offsetIn r (fieldAt rbuf cur (nbits r.toNat))
       else if r = 256 then offsetIn r (alignedFieldAt rbuf cur 8)
       else if r ≤ 65536 then offsetIn r (alignedFieldAt rbuf cur 16)
       else
         let K := nonnegOctets (r - 1).toNat
         match p.cwnLargeForm with
         | .x691LengthPrefixed =>
           match decCwn p 1 K rbuf cur with
           | .ok (k, c) => offsetIn r (alignedFieldAt rbuf c (8 * (1 + k)))
           | .error e => .error e
         | .fixedRangeOctets => offsetIn r (alignedFieldAt rbuf cur (8 * K)))

/-- ENC_INT, ENC_ENUM and ENC_CHOICE over both bounds append the marker, if X, and EncCWN: the same
bits for the three (R70, R126, R172, R210). -/
def Obligations.EncodeConstrainedNumbers : Prop :=
  ∀ (s : State) (x : Bool) (lb ub v : Int), s.Ready .enc → lb ≤ v → v ≤ ub →
    let t := s.afterEncode (encCwn s.params lb ub v (s.wbuf ++ marker x))
    exec (.encInt false x (some lb) (some ub) v) s = .next t ∧
    exec (.encEnum false x lb ub v) s = .next t ∧
    exec (.encChoice false x lb ub v) s = .next t

/-- ENC_INT without an upper bound or without a lower one: marker, padding, the octet count in its
shortest form, then that many octets, unsigned from lb or two's complement (R122, R124, R126). The
form of the octet count is the spec's general knowledge (G6, log 15). -/
def Obligations.EncodeOctetIntegers : Prop :=
  ∀ (s : State) (x : Bool) (v : Int), s.Ready .enc →
    let w := s.wbuf ++ marker x
    (∀ lb : Int, lb ≤ v → nonnegOctets (v - lb).toNat < 16384 →
      exec (.encInt false x (some lb) none v) s = .next (s.afterEncode
        (w ++ padBits w.length ++ shortestLength (nonnegOctets (v - lb).toNat) ++
          uintBits (v - lb).toNat (8 * nonnegOctets (v - lb).toNat)))) ∧
    ∀ ub : Option Int, (∀ u, ub = some u → v ≤ u) → twosOctets v < 16384 →
      exec (.encInt false x none ub v) s = .next (s.afterEncode
        (w ++ padBits w.length ++ shortestLength (twosOctets v) ++
          uintBits (v % 2 ^ (8 * twosOctets v)).toNat (8 * twosOctets v)))

/-- DEC_INT, DEC_ENUM and DEC_CHOICE over both bounds return lb plus the offset DecCWN reads after a
clear marker, and raise the error DecCWN raises (R127, R173, R211). -/
def Obligations.DecodeConstrainedNumbers : Prop :=
  ∀ (s : State) (x : Bool) (lb ub : Int), s.Ready .dec → s.cur ≤ s.rbuf.length →
    MarkerClear x s →
    (∀ n c, decCwn s.params lb ub s.rbuf (s.cur + (marker x).length) = .ok (n, c) →
      exec (.decInt x (some lb) (some ub)) s = .next (s.afterDecode (.int (lb + n)) c) ∧
      exec (.decEnum x lb ub) s = .next (s.afterDecode (.int (lb + n)) c) ∧
      exec (.decChoice x lb ub) s = .next (s.afterDecode (.int (lb + n)) c)) ∧
    ∀ k, decCwn s.params lb ub s.rbuf (s.cur + (marker x).length) = .error k →
      DecodeFails (.decInt x (some lb) (some ub)) k s ∧ DecodeFails (.decEnum x lb ub) k s ∧
      DecodeFails (.decChoice x lb ub) k s

/-- DEC_INT without an upper bound or without a lower one: after the marker and padding of any value,
a length form of k octets, k at least 1, then the k octets, unsigned above lb or two's complement,
minimal or not (R123, R125, R127). -/
def Obligations.DecodeOctetIntegers : Prop :=
  ∀ (s : State) (x : Bool) (k : Nat) (front hdr body rest : Bits), s.Ready .dec →
    MarkerClear x s →
    s.rbuf = front ++ hdr ++ body ++ rest →
    front.length = s.cur + (marker x).length + (8 - (s.cur + (marker x).length) % 8) % 8 →
    LengthForm k hdr → 1 ≤ k → body.length = 8 * k →
    (∀ lb : Int, exec (.decInt x (some lb) none) s =
      .next (s.afterDecode (.int (lb + uint body)) (front.length + hdr.length + 8 * k))) ∧
    ∀ ub : Option Int, (∀ u, ub = some u → sint body ≤ u) →
      exec (.decInt x none ub) s =
        .next (s.afterDecode (.int (sint body)) (front.length + hdr.length + 8 * k))

/-- DEC_INT's errors on those forms: an octet count of 0 and a value above ub are bounds violations,
a length whose first two bits are 11 is unimplemented, and a missing octet, of the content or of the
octet count itself, is Exhausted (R123, R125, R127, R153, R223). -/
def Obligations.DecodeOctetIntegerErrors : Prop :=
  ∀ (s : State) (x : Bool) (lb : Int) (ub : Option Int),
    s.Ready .dec → MarkerClear x s → s.cur ≤ s.rbuf.length →
    (LengthCutShort s.rbuf (s.cur + (marker x).length) →
      DecodeFails (.decInt x (some lb) none) .exhausted s ∧
      DecodeFails (.decInt x none ub) .exhausted s) ∧
    ∀ (k : Nat) (front hdr body : Bits), s.rbuf = front ++ hdr ++ body →
    front.length = s.cur + (marker x).length + (8 - (s.cur + (marker x).length) % 8) % 8 →
    (LengthForm 0 hdr →
      DecodeFails (.decInt x (some lb) none) .boundsViolation s ∧
      DecodeFails (.decInt x none ub) .boundsViolation s) ∧
    (LengthForm k hdr → body.length < 8 * k →
      DecodeFails (.decInt x (some lb) none) .exhausted s ∧
      DecodeFails (.decInt x none ub) .exhausted s) ∧
    (hdr = [true, true] →
      DecodeFails (.decInt x (some lb) none) .unimplemented s ∧
      DecodeFails (.decInt x none ub) .unimplemented s) ∧
    (∀ u : Int, LengthForm k hdr → 1 ≤ k → 8 * k ≤ body.length → u < sint (body.take (8 * k)) →
      DecodeFails (.decInt x none (some u)) .boundsViolation s)

/-- DEC_INT recovers the value from the bits ENC_INT wrote, with the cursor at the end of them, for
every combination of bounds and marker, after any earlier bits and before any later ones (R128). -/
def Obligations.IntegerRoundTrip : Prop :=
  ∀ (s t : State) (x : Bool) (lb ub : Option Int) (v : Int) (w rest : Bits), s.Ready .enc →
    t.Ready .dec → t.params = s.params →
    exec (.encInt false x lb ub v) s = .next (s.afterEncode w) → t.rbuf = w ++ rest →
    t.cur = s.wbuf.length →
    exec (.decInt x lb ub) t = .next (t.afterDecode (.int v) w.length)

/-! ### Length determinant -/

/-- ENC_LEN over a present `ub < 65536` is EncCWN over `[lb or 0, ub]`; otherwise it aligns and
appends the shortest form of the length (R151, R152, R154, R156). -/
def Obligations.EncodeLength : Prop :=
  ∀ (s : State) (lb ub : Option Int) (v : Int), s.Ready .enc → lengthBoundOk lb = true → 0 ≤ v →
    InBounds lb ub v →
    (∀ u, ub = some u → u < 65536 →
      exec (.encLen false lb ub v) s =
        .next (s.afterEncode (encCwn s.params (lb.getD 0) u v s.wbuf))) ∧
    ((∀ u, ub = some u → 65536 ≤ u) → v < 16384 →
      exec (.encLen false lb ub v) s =
        .next (s.afterEncode (s.wbuf ++ padBits s.wbuf.length ++ shortestLength v.toNat)))

/-- DEC_LEN in both regimes, with a two-octet form of a small length accepted (R153, R155, R157). -/
def Obligations.DecodeLength : Prop :=
  ∀ (s : State) (lb ub : Option Int), s.Ready .dec → lengthBoundOk lb = true →
    (∀ u n c, ub = some u → u < 65536 →
      decCwn s.params (lb.getD 0) u s.rbuf s.cur = .ok (n, c) →
      exec (.decLen false lb ub) s = .next (s.afterDecode (.int (lb.getD 0 + n)) c)) ∧
    ∀ (n : Nat) (front hdr rest : Bits), (∀ u, ub = some u → 65536 ≤ u) →
      s.rbuf = front ++ hdr ++ rest → front.length = s.cur + (8 - s.cur % 8) % 8 →
      LengthForm n hdr → InBounds lb ub n →
      exec (.decLen false lb ub) s =
        .next (s.afterDecode (.int n) (front.length + hdr.length))

/-- DEC_LEN's errors: the normally-small form is unimplemented and nothing is read, so CUR does not
move (R150; that CUR stays is the model's reading, log 8); a fragmented form is unimplemented; a
determinant that the buffer cuts short is Exhausted; a length outside a present bound is a bounds
violation in the unconstrained regime too; and DecCWN's errors are DEC_LEN's (R153, R155, R157,
R223). -/
def Obligations.DecodeLengthErrors : Prop :=
  ∀ (s : State) (lb ub : Option Int), s.Ready .dec → s.cur ≤ s.rbuf.length →
    lengthBoundOk lb = true →
    (∃ d, exec (.decLen true lb ub) s = .next (s.afterError .unimplemented d)) ∧
    (∀ u k, ub = some u → u < 65536 →
      decCwn s.params (lb.getD 0) u s.rbuf s.cur = .error k →
      DecodeFails (.decLen false lb ub) k s) ∧
    ((∀ u, ub = some u → 65536 ≤ u) → LengthCutShort s.rbuf s.cur →
      DecodeFails (.decLen false lb ub) .exhausted s) ∧
    ∀ front hdr rest : Bits, (∀ u, ub = some u → 65536 ≤ u) →
      s.rbuf = front ++ hdr ++ rest → front.length = s.cur + (8 - s.cur % 8) % 8 →
      (hdr = [true, true] → DecodeFails (.decLen false lb ub) .unimplemented s) ∧
      (∀ n : Nat, LengthForm n hdr → ¬ InBounds lb ub n →
        DecodeFails (.decLen false lb ub) .boundsViolation s)

/-- DEC_LEN recovers the length from the bits ENC_LEN wrote, in every regime (R156, R157). -/
def Obligations.LengthRoundTrip : Prop :=
  ∀ (s t : State) (lb ub : Option Int) (v : Int) (w rest : Bits), s.Ready .enc → t.Ready .dec →
    t.params = s.params → exec (.encLen false lb ub v) s = .next (s.afterEncode w) →
    t.rbuf = w ++ rest → t.cur = s.wbuf.length →
    exec (.decLen false lb ub) t = .next (t.afterDecode (.int v) w.length)

/-! ### Strings, sequence header -/

/-- ENC_BITSTR: marker, determinant, padding when the string is longer than 16 bits, the bits
verbatim (R180). -/
def Obligations.EncodeBitString : Prop :=
  ∀ (s : State) (x : Bool) (lb ub : Option Int) (bits : Bits), s.Ready .enc →
    lengthBoundOk lb = true → InBounds lb ub bits.length → bits.length < 16384 →
    let d := encLen s.params lb ub bits.length (s.wbuf ++ marker x)
    exec (.encBitStr false x lb ub bits) s = .next (s.afterEncode
      (d ++ (if bits.length > 16 then padBits d.length else []) ++ bits))

/-- ENC_OCTSTR: marker, determinant, padding when the string is longer than 2 octets, the octets
(R184). -/
def Obligations.EncodeOctetString : Prop :=
  ∀ (s : State) (x : Bool) (lb ub : Option Int) (o : List Octet), s.Ready .enc →
    lengthBoundOk lb = true → InBounds lb ub o.length → o.length < 16384 →
    let d := encLen s.params lb ub o.length (s.wbuf ++ marker x)
    exec (.encOctStr false x lb ub o) s = .next (s.afterEncode
      (d ++ (if o.length > 2 then padBits d.length else []) ++ octetsToBits o))

/-- The three character-string encoders are one routine: as an octet string, but the 16384 limit
holds only where the determinant is unconstrained, and no alphabet is checked (R188, R190, R192,
R194). -/
def Obligations.EncodeCharacterStrings : Prop :=
  ∀ (s : State) (x : Bool) (lb ub : Option Int) (o : List Octet), s.Ready .enc →
    lengthBoundOk lb = true → InBounds lb ub o.length →
    ((∀ u, ub = some u → 65536 ≤ u) → o.length < 16384) →
    let d := encLen s.params lb ub o.length (s.wbuf ++ marker x)
    let t := s.afterEncode (d ++ (if o.length > 2 then padBits d.length else []) ++ octetsToBits o)
    exec (.encVisStr false x lb ub o) s = .next t ∧ exec (.encPrtStr false x lb ub o) s = .next t ∧
    exec (.encUtf8Str false x lb ub o) s = .next t

/-- The determinant inside a string: EncCWN over `[lb or 0, ub]` for `ub < 65536`, else aligned and
in its shortest form (R151, R152, R154). The layout of that form is the spec's general knowledge (G7,
log 15). -/
def Obligations.StringDeterminant : Prop :=
  ∀ (p : Params) (lb ub : Option Int) (n : Nat) (w : Bits),
    (∀ u, ub = some u → u < 65536 → encLen p lb ub n w = encCwn p (lb.getD 0) u n w) ∧
    ((∀ u, ub = some u → 65536 ≤ u) →
      encLen p lb ub n w = w ++ padBits w.length ++ shortestLength n)

/-- The string decoders: after a clear marker and the length that DecLen reads, the content is
aligned above the threshold and returned as read, with no check of padding, alphabet or UTF-8 (R181,
R185, R189, R191, R193, R195). -/
def Obligations.DecodeStrings : Prop :=
  ∀ (s : State) (x : Bool) (lb ub : Option Int) (len c : Nat), s.Ready .dec →
    lengthBoundOk lb = true → MarkerClear x s →
    decLen s.params lb ub s.rbuf (s.cur + (marker x).length) = .ok ((len : Int), c) →
    let at16 := if len > 16 then c + (8 - c % 8) % 8 else c
    let at2 := if len > 2 then c + (8 - c % 8) % 8 else c
    (len < 16384 → at16 + len ≤ s.rbuf.length →
      exec (.decBitStr x lb ub) s =
        .next (s.afterDecode (.bits ((s.rbuf.drop at16).take len)) (at16 + len))) ∧
    ∀ o : List Octet, octetsToBits o = (s.rbuf.drop at2).take (8 * len) →
      at2 + 8 * len ≤ s.rbuf.length →
      (len < 16384 →
        exec (.decOctStr x lb ub) s = .next (s.afterDecode (.octets o) (at2 + 8 * len))) ∧
      exec (.decVisStr x lb ub) s = .next (s.afterDecode (.octets o) (at2 + 8 * len)) ∧
      exec (.decPrtStr x lb ub) s = .next (s.afterDecode (.octets o) (at2 + 8 * len)) ∧
      exec (.decUtf8Str x lb ub) s = .next (s.afterDecode (.octets o) (at2 + 8 * len))

/-- The string decoders' errors after a clear marker: DecLen's own errors, a bit or octet string of
16384 units or more, which is unimplemented in every regime, and content that ends early (R181,
R185, R189, R221). -/
def Obligations.DecodeStringErrors : Prop :=
  ∀ (s : State) (x : Bool) (lb ub : Option Int), s.Ready .dec → s.cur ≤ s.rbuf.length →
    lengthBoundOk lb = true → MarkerClear x s →
    (∀ k, decLen s.params lb ub s.rbuf (s.cur + (marker x).length) = .error k →
      ∀ i ∈ [.decBitStr x lb ub, .decOctStr x lb ub, .decVisStr x lb ub, .decPrtStr x lb ub,
          .decUtf8Str x lb ub], DecodeFails i k s) ∧
    ∀ len c : Nat, decLen s.params lb ub s.rbuf (s.cur + (marker x).length) = .ok ((len : Int), c) →
      (16384 ≤ len → DecodeFails (.decBitStr x lb ub) .unimplemented s ∧
        DecodeFails (.decOctStr x lb ub) .unimplemented s) ∧
      (len < 16384 → s.rbuf.length < (if len > 16 then c + (8 - c % 8) % 8 else c) + len →
        DecodeFails (.decBitStr x lb ub) .exhausted s) ∧
      (s.rbuf.length < (if len > 2 then c + (8 - c % 8) % 8 else c) + 8 * len →
        (len < 16384 → DecodeFails (.decOctStr x lb ub) .exhausted s) ∧
        ∀ i ∈ [.decVisStr x lb ub, .decPrtStr x lb ub, .decUtf8Str x lb ub],
          DecodeFails i .exhausted s)

/-- What DecLen answers on every buffer: the constrained length; or the unconstrained one, with the
closing checks of the present bounds, Unimplemented where it is fragmented, and Exhausted where the
buffer cuts it short (R151, R153, R155, R221, R223). -/
def Obligations.StringLengthRead : Prop :=
  ∀ (p : Params) (lb ub : Option Int) (rbuf : Bits) (cur : Nat), lengthBoundOk lb = true →
    (∀ u, ub = some u → u < 65536 →
      decLen p lb ub rbuf cur =
        match decCwn p (lb.getD 0) u rbuf cur with
        | .ok (n, c) => .ok (lb.getD 0 + n, c)
        | .error k => .error k) ∧
    ((∀ u, ub = some u → 65536 ≤ u) →
      (LengthCutShort rbuf cur → decLen p lb ub rbuf cur = .error .exhausted) ∧
      ∀ front hdr rest : Bits, rbuf = front ++ hdr ++ rest →
        front.length = cur + (8 - cur % 8) % 8 →
        (hdr = [true, true] → decLen p lb ub rbuf cur = .error .unimplemented) ∧
        ∀ n : Nat, LengthForm n hdr →
          decLen p lb ub rbuf cur =
            if InBounds lb ub n then .ok ((n : Int), front.length + hdr.length)
            else .error .boundsViolation)

/-- Every string decoder recovers the content its encoder wrote, with the cursor at its end, for
every bound, marker and position, and whatever the OPEN parameters are (R180 to R195). -/
def Obligations.StringRoundTrip : Prop :=
  ∀ (s t : State) (x : Bool) (lb ub : Option Int) (w rest : Bits), s.Ready .enc → t.Ready .dec →
    t.params = s.params → t.rbuf = w ++ rest → t.cur = s.wbuf.length →
    (∀ bits, exec (.encBitStr false x lb ub bits) s = .next (s.afterEncode w) →
      exec (.decBitStr x lb ub) t = .next (t.afterDecode (.bits bits) w.length)) ∧
    ∀ o : List Octet,
      (exec (.encOctStr false x lb ub o) s = .next (s.afterEncode w) →
        exec (.decOctStr x lb ub) t = .next (t.afterDecode (.octets o) w.length)) ∧
      (exec (.encVisStr false x lb ub o) s = .next (s.afterEncode w) →
        exec (.decVisStr x lb ub) t = .next (t.afterDecode (.octets o) w.length)) ∧
      (exec (.encPrtStr false x lb ub o) s = .next (s.afterEncode w) →
        exec (.decPrtStr x lb ub) t = .next (t.afterDecode (.octets o) w.length)) ∧
      (exec (.encUtf8Str false x lb ub o) s = .next (s.afterEncode w) →
        exec (.decUtf8Str x lb ub) t = .next (t.afterDecode (.octets o) w.length))

/-- ENC_SEQHDR writes the marker, if X, and the bitmap, with no length and no alignment; DEC_SEQHDR
reads the marker and returns the next n bits (R212, R213). -/
def Obligations.SequenceHeader : Prop :=
  (∀ (s : State) (x : Bool) (bits : Bits), s.Ready .enc →
    exec (.encSeqHdr false x bits) s = .next (s.afterEncode (s.wbuf ++ marker x ++ bits))) ∧
  ∀ (s : State) (x : Bool) (n : Nat), s.Ready .dec → MarkerClear x s →
    s.cur + (marker x).length + n ≤ s.rbuf.length →
    exec (.decSeqHdr x n) s = .next (s.afterDecode
      (.bits ((s.rbuf.drop (s.cur + (marker x).length)).take n))
      (s.cur + (marker x).length + n))
end

