-- ==== Sys2Proof/Laws/Numbers.lean ====
section
/-! SUPPORT. The number formats and size functions of spec/00_scope.md R7 to R12: lengths, inverses,
and that each size function is the least count the spec asks for. -/

namespace Sys2Proof.Laws

open Sys2Proof.Machine

@[simp] theorem zeros_length (k : Nat) : (zeros k).length = k := by simp [zeros]

@[simp] theorem zeros_zero : zeros 0 = [] := rfl

@[simp] theorem uintBits_length (v k : Nat) : (uintBits v k).length = k := by
  induction k with
  | zero => rfl
  | succ k ih => simp [uintBits, ih]

@[simp] theorem twosBits_length (v : Int) (k : Nat) : (twosBits v k).length = k := by
  simp [twosBits]

theorem uint_lt (s : Bits) : uint s < 2 ^ s.length := by
  induction s with
  | nil => simp [uint]
  | cons b s ih =>
    have hb : b.toNat ≤ 1 := Bool.toNat_le b
    have : b.toNat * 2 ^ s.length ≤ 1 * 2 ^ s.length := Nat.mul_le_mul_right _ hb
    simp only [uint, List.length_cons, pow_succ]
    omega

theorem uint_uintBits_mod (v k : Nat) : uint (uintBits v k) = v % 2 ^ k := by
  induction k with
  | zero => simp [uintBits, uint, Nat.mod_one]
  | succ k ih =>
    simp only [uintBits, uint, uintBits_length, ih, Nat.testBit_eq_decide_div_mod_eq]
    have h2 : v / 2 ^ k % 2 < 2 := Nat.mod_lt _ (by decide)
    rw [pow_succ, Nat.mod_mul]
    rcases Nat.mod_two_eq_zero_or_one (v / 2 ^ k) with h | h <;> simp [h]
    omega

/-- `uint` inverts `uint_bits` on the values the field holds (R9). -/
theorem uint_uintBits {v k : Nat} (h : v < 2 ^ k) : uint (uintBits v k) = v := by
  rw [uint_uintBits_mod, Nat.mod_eq_of_lt h]

theorem uintBits_mod (v k : Nat) : uintBits (v % 2 ^ k) k = uintBits v k := by
  have key : ∀ j ≤ k, uintBits (v % 2 ^ k) j = uintBits v j := by
    intro j
    induction j with
    | zero => intro _; rfl
    | succ j ih =>
      intro hj
      simp only [uintBits, Nat.testBit_mod_two_pow, ih (by omega)]
      simp [show j < k by omega]
  exact key k le_rfl

/-- `uint_bits` inverts `uint` (R9). -/
theorem uintBits_uint (s : Bits) : uintBits (uint s) s.length = s := by
  induction s with
  | nil => rfl
  | cons b s ih =>
    have hlt := uint_lt s
    simp only [List.length_cons, uintBits, uint]
    congr 1
    · rw [Nat.testBit_eq_decide_div_mod_eq, Nat.mul_comm, Nat.mul_add_div (by positivity),
        Nat.div_eq_of_lt hlt]
      cases b <;> rfl
    · rw [← uintBits_mod, Nat.mul_comm, Nat.mul_add_mod, Nat.mod_eq_of_lt hlt, ih]

/-- `sint` inverts `twos_bits` on the values the field holds (R10). -/
theorem sint_twosBits {v : Int} {k : Nat} (hk : 1 ≤ k) (hlo : -(2 ^ (k - 1) : Int) ≤ v)
    (hhi : v < 2 ^ (k - 1)) : sint (twosBits v k) = v := by
  obtain ⟨j, rfl⟩ : ∃ j, k = j + 1 := ⟨k - 1, by omega⟩
  simp only [Nat.add_sub_cancel] at hlo hhi
  have hp : (0 : Int) < 2 ^ j := by positivity
  have hpp : (2 : Int) ^ (j + 1) = 2 ^ j * 2 := pow_succ ..
  have hm0 : 0 ≤ v % 2 ^ (j + 1) := Int.emod_nonneg _ (by positivity)
  have hm1 : v % 2 ^ (j + 1) < 2 ^ (j + 1) := Int.emod_lt_of_pos _ (by positivity)
  have hnat : (v % 2 ^ (j + 1)).toNat < 2 ^ (j + 1) := by
    zify; rw [Int.toNat_of_nonneg hm0]; exact hm1
  have hu : (uint (twosBits v (j + 1)) : Int) = v % 2 ^ (j + 1) := by
    rw [twosBits, uint_uintBits hnat, Int.toNat_of_nonneg hm0]
  have hhead : (twosBits v (j + 1)).head? = some ((v % 2 ^ (j + 1)).toNat.testBit j) := rfl
  have hjn : ((2 ^ j : Nat) : Int) = 2 ^ j := by push_cast; rfl
  have hbit : (v % 2 ^ (j + 1)).toNat.testBit j = decide (2 ^ j ≤ (v % 2 ^ (j + 1)).toNat) := by
    rw [Nat.testBit_eq_decide_div_mod_eq]
    have hd : (v % 2 ^ (j + 1)).toNat / 2 ^ j < 2 := by
      rw [Nat.div_lt_iff_lt_mul (by positivity)]; rw [pow_succ] at hnat; omega
    rw [Nat.mod_eq_of_lt hd]
    congr 1
    have : 2 ^ j ≤ (v % 2 ^ (j + 1)).toNat ↔ 1 ≤ (v % 2 ^ (j + 1)).toNat / 2 ^ j := by
      rw [Nat.le_div_iff_mul_le (by positivity)]; simp
    rw [this, eq_iff_iff]; omega
  rw [sint, hhead, hbit, hu, twosBits_length]
  rcases lt_or_ge v 0 with hv | hv
  · have hmod : v % 2 ^ (j + 1) = v + 2 ^ (j + 1) := by
      rw [← Int.add_emod_right, Int.emod_eq_of_lt (by omega) (by omega)]
    rw [hmod] at hm0 ⊢
    have hge : 2 ^ j ≤ (v + 2 ^ (j + 1)).toNat := by zify; rw [Int.toNat_of_nonneg hm0]; omega
    simp [hge]
  · have hmod : v % 2 ^ (j + 1) = v := Int.emod_eq_of_lt hv (by omega)
    rw [hmod] at hm0 ⊢
    have hlt : ¬ 2 ^ j ≤ v.toNat := by zify; rw [Int.toNat_of_nonneg hm0]; omega
    simp [hlt]

/-- `nbits(r)` is the least k with `2^k >= r` (R11). -/
theorem nbits_le_iff (r k : Nat) : nbits r ≤ k ↔ r ≤ 2 ^ k := by
  unfold nbits
  split
  · next h => simp; exact le_trans h Nat.one_le_two_pow
  · next h =>
    have hr : r - 1 ≠ 0 := by omega
    rw [Nat.succ_le_iff, Nat.log2_lt hr]; omega

/-- `nonneg_octets(v)` is the least `k >= 1` with `v < 2^(8k)` (R11). -/
theorem nonnegOctets_le_iff (v k : Nat) : nonnegOctets v ≤ k ↔ 1 ≤ k ∧ v < 2 ^ (8 * k) := by
  unfold nonnegOctets
  split
  · next h => subst h; simp
  · next h =>
    rw [Nat.succ_le_iff, Nat.div_lt_iff_lt_mul (by decide), Nat.mul_comm k 8]
    rw [Nat.log2_lt h]
    constructor
    · intro hv
      refine ⟨?_, hv⟩
      by_contra hk
      obtain rfl : k = 0 := by omega
      simp at hv; omega
    · exact fun hv => hv.2

theorem one_le_nonnegOctets (v : Nat) : 1 ≤ nonnegOctets v :=
  ((nonnegOctets_le_iff v _).1 le_rfl).1

theorem lt_nonnegOctets (v : Nat) : v < 2 ^ (8 * nonnegOctets v) :=
  ((nonnegOctets_le_iff v _).1 le_rfl).2

theorem nonnegOctets_mono {a b : Nat} (h : a ≤ b) : nonnegOctets a ≤ nonnegOctets b :=
  (nonnegOctets_le_iff a _).2 ⟨one_le_nonnegOctets b, lt_of_le_of_lt h (lt_nonnegOctets b)⟩

theorem le_two_pow_nbits (r : Nat) : r ≤ 2 ^ nbits r := (nbits_le_iff r _).1 le_rfl

/-- `twos_octets(v)` is the least `k >= 1` with `-2^(8k-1) <= v < 2^(8k-1)` (R11). -/
theorem twosOctets_le_iff (v : Int) (k : Nat) :
    twosOctets v ≤ k ↔ 1 ≤ k ∧ -(2 ^ (8 * k - 1) : Int) ≤ v ∧ v < 2 ^ (8 * k - 1) := by
  unfold twosOctets
  by_cases hk : 1 ≤ k
  · obtain ⟨j, hj⟩ : ∃ j, 8 * k = j + 1 := ⟨8 * k - 1, by omega⟩
    have hp : (0 : Int) < 2 ^ j := by positivity
    have hcast : ((2 ^ j : Nat) : Int) = 2 ^ j := by push_cast; rfl
    split
    · next h =>
      rw [nonnegOctets_le_iff, hj, pow_succ]
      simp only [hk, true_and, Nat.add_sub_cancel]
      have : v.toNat = v := Int.toNat_of_nonneg h
      omega
    · next h =>
      rw [nonnegOctets_le_iff, hj, pow_succ]
      simp only [hk, true_and, Nat.add_sub_cancel]
      have : ((-v - 1).toNat : Int) = -v - 1 := Int.toNat_of_nonneg (by omega)
      omega
  · split <;> simp [nonnegOctets_le_iff, hk]

theorem one_le_twosOctets (v : Int) : 1 ≤ twosOctets v := ((twosOctets_le_iff v _).1 le_rfl).1

/-- `pad(n)` reaches the next octet boundary (R12). -/
theorem add_pad_mod (n : Nat) : (n + pad n) % 8 = 0 := by unfold pad; omega

theorem pad_lt (n : Nat) : pad n < 8 := Nat.mod_lt _ (by decide)

theorem pad_eq_zero_iff (n : Nat) : pad n = 0 ↔ n % 8 = 0 := by unfold pad; omega

@[simp] theorem octetsToBits_nil : octetsToBits [] = [] := rfl

@[simp] theorem octetsToBits_cons (x : Octet) (o : List Octet) :
    octetsToBits (x :: o) = uintBits x.toNat 8 ++ octetsToBits o := by simp [octetsToBits]

@[simp] theorem octetsToBits_length (o : List Octet) : (octetsToBits o).length = 8 * o.length := by
  induction o with
  | nil => rfl
  | cons x o ih => simp [ih]; omega

@[simp] theorem octetsOf_length (m : Nat) (s : Bits) : (octetsOf m s).length = m := by
  induction m generalizing s with
  | zero => rfl
  | succ m ih => simp [octetsOf, ih]

@[simp] theorem bitsToOctets_length (s : Bits) : (bitsToOctets s).length = s.length / 8 := by
  simp [bitsToOctets]

/-- `bits_to_octets` inverts `octets_to_bits` (R12). -/
theorem bitsToOctets_octetsToBits (o : List Octet) : bitsToOctets (octetsToBits o) = o := by
  have key : ∀ o : List Octet, octetsOf o.length (octetsToBits o) = o := by
    intro o
    induction o with
    | nil => rfl
    | cons x o ih =>
      simp only [List.length_cons, octetsOf, octetsToBits_cons]
      rw [List.take_left' (uintBits_length _ _), List.drop_left' (uintBits_length _ _), ih,
        uint_uintBits x.isLt]
      simp
  rw [bitsToOctets, octetsToBits_length, Nat.mul_div_cancel_left _ (by decide)]
  exact key o

/-- `octets_to_bits` inverts `bits_to_octets` on whole octets (R12). -/
theorem octetsToBits_bitsToOctets {s : Bits} (h : s.length % 8 = 0) :
    octetsToBits (bitsToOctets s) = s := by
  have key : ∀ (m : Nat) (s : Bits), s.length = 8 * m → octetsToBits (octetsOf m s) = s := by
    intro m
    induction m with
    | zero => intro s hs; simp at hs; simp [octetsOf, hs]
    | succ m ih =>
      intro s hs
      simp only [octetsOf, octetsToBits_cons]
      rw [ih (s.drop 8) (by simp; omega)]
      have ht : (s.take 8).length = 8 := by simp; omega
      have hu : (BitVec.ofNat 8 (uint (s.take 8))).toNat = uint (s.take 8) := by
        have := uint_lt (s.take 8)
        rw [ht] at this
        simpa using Nat.mod_eq_of_lt this
      have hb := uintBits_uint (s.take 8)
      rw [ht] at hb
      rw [hu, hb, List.take_append_drop]
  exact key (s.length / 8) s (by omega)

end Sys2Proof.Laws
end

