-- ==== Sys2Proof/Laws/Buffer.lean ====
section
/-! SUPPORT. The buffer primitives and the shared forms of numbers, lengths and strings: what each read
can answer, that a read only moves the cursor forward and inside the buffer, that an encoder only
appends, and that a read at the place where bits were appended gives them back. -/

namespace Sys2Proof.Laws

open Sys2Proof.Machine

/-! ### Reads -/

/-- A read that answers leaves the cursor between where it was and the end of the buffer. -/
def Forward (rbuf : Bits) (cur c : Nat) : Prop := cur ≤ c ∧ (cur ≤ rbuf.length → c ≤ rbuf.length)

theorem Forward.refl (rbuf : Bits) (cur : Nat) : Forward rbuf cur cur := ⟨le_rfl, id⟩

theorem Forward.trans {rbuf : Bits} {a b c : Nat} (h : Forward rbuf a b) (h' : Forward rbuf b c) :
    Forward rbuf a c := ⟨h.1.trans h'.1, fun ha => h'.2 (h.2 ha)⟩

/-- Everything `Read` can answer (R104). -/
theorem readBits_ok_iff {rbuf : Bits} {cur n : Nat} {s : Bits} {c : Nat} :
    readBits rbuf cur n = .ok (s, c) ↔
      cur + n ≤ rbuf.length ∧ s = (rbuf.drop cur).take n ∧ c = cur + n := by
  unfold readBits
  split
  · next h =>
    simp only [Except.ok.injEq, Prod.mk.injEq, h, true_and]
    constructor <;> rintro ⟨rfl, rfl⟩ <;> exact ⟨rfl, rfl⟩
  · next h => simp [h]

theorem readBits_length {rbuf : Bits} {cur n : Nat} {s : Bits} {c : Nat}
    (h : readBits rbuf cur n = .ok (s, c)) : s.length = n := by
  obtain ⟨hle, rfl, rfl⟩ := readBits_ok_iff.1 h
  simp; omega

theorem readBits_forward {rbuf : Bits} {cur n : Nat} {s : Bits} {c : Nat}
    (h : readBits rbuf cur n = .ok (s, c)) : Forward rbuf cur c := by
  obtain ⟨hle, rfl, rfl⟩ := readBits_ok_iff.1 h
  exact ⟨by omega, fun _ => hle⟩

theorem readBits_error_iff {rbuf : Bits} {cur n : Nat} {k : ErrKind} :
    readBits rbuf cur n = .error k ↔ rbuf.length < cur + n ∧ k = .exhausted := by
  unfold readBits
  split
  · next h => simp; omega
  · next h => simp [eq_comm]; omega

/-- Bits that stand at the cursor are what `Read` gives. -/
theorem readBits_at {rbuf front s rest : Bits} {cur n : Nat} (hr : rbuf = front ++ s ++ rest)
    (hc : cur = front.length) (hn : n = s.length) : readBits rbuf cur n = .ok (s, cur + n) := by
  subst hr hc hn
  simp [readBits]

/-- One bit that stands at the cursor is what `Read(1)` gives. -/
theorem readBit_at {rbuf front rest : Bits} {b : Bool} {cur : Nat}
    (hr : rbuf = front ++ b :: rest) (hc : cur = front.length) :
    readBits rbuf cur 1 = .ok ([b], cur + 1) :=
  readBits_at (s := [b]) (rest := rest) (by simp [hr]) hc rfl

/-- Everything `AlignD` can answer (R106). -/
theorem alignDec_ok_iff {rbuf : Bits} {cur c : Nat} :
    alignDec rbuf cur = .ok c ↔ cur + pad cur ≤ rbuf.length ∧ c = cur + pad cur := by
  unfold alignDec
  split
  · next h => simp [h, eq_comm]
  · next h => simp [h]

theorem alignDec_forward {rbuf : Bits} {cur c : Nat} (h : alignDec rbuf cur = .ok c) :
    Forward rbuf cur c := by
  obtain ⟨hle, rfl⟩ := alignDec_ok_iff.1 h
  exact ⟨by omega, fun _ => hle⟩

/-- `AlignD` never fails inside a buffer of whole octets (R106). -/
theorem alignDec_octets {rbuf : Bits} {cur : Nat} (h8 : rbuf.length % 8 = 0)
    (hc : cur ≤ rbuf.length) : alignDec rbuf cur = .ok (cur + pad cur) := by
  rw [alignDec_ok_iff]
  refine ⟨?_, rfl⟩
  unfold pad; omega

/-! ### Alignment of the two sides agrees -/

@[simp] theorem alignEnc_length (w : Bits) : (alignEnc w).length = w.length + pad w.length := by
  simp [alignEnc, appendBits]

theorem alignEnc_octets (w : Bits) : (alignEnc w).length % 8 = 0 := by
  simpa using add_pad_mod w.length

theorem alignDec_at {rbuf w rest : Bits} (hr : rbuf = alignEnc w ++ rest) :
    alignDec rbuf w.length = .ok (alignEnc w).length := by
  subst hr
  simp [alignDec]

/-! ### Encoders only append -/

theorem append_extends {w w' : Bits} (s : Bits) (h : w <+: w') : w <+: appendBits w' s :=
  h.trans (List.prefix_append ..)

theorem alignEnc_extends (w : Bits) : w <+: alignEnc w := List.prefix_append ..

theorem encMarker_extends (x : Bool) (w : Bits) : w <+: encMarker x w := by
  cases x
  · exact List.prefix_rfl
  · exact List.prefix_append ..

theorem cwnEncode_extends (p : Params) (fuel r n : Nat) (w : Bits) :
    w <+: cwnEncode p fuel r n w := by
  induction fuel generalizing r n w with
  | zero => exact List.prefix_rfl
  | succ fuel ih =>
    unfold cwnEncode
    split
    · exact List.prefix_rfl
    split
    · exact append_extends _ List.prefix_rfl
    split
    · exact append_extends _ (alignEnc_extends w)
    split
    · exact append_extends _ (alignEnc_extends w)
    split
    · exact append_extends _ ((ih ..).trans (alignEnc_extends _))
    · exact append_extends _ (alignEnc_extends w)

theorem encCwn_extends (p : Params) (lb ub v : Int) (w : Bits) : w <+: encCwn p lb ub v w :=
  cwnEncode_extends ..

theorem encUnconLen_extends (n : Nat) (w : Bits) : w <+: encUnconLen n w :=
  append_extends _ (alignEnc_extends w)

theorem encLen_extends (p : Params) (lb ub : Option Int) (n : Nat) (w : Bits) :
    w <+: encLen p lb ub n w := by
  unfold encLen
  split
  · exact encCwn_extends ..
  · exact encUnconLen_extends ..

theorem encString_extends (p : Params) (t : Nat) (x : Bool) (lb ub : Option Int) (len : Nat)
    (content w : Bits) : w <+: encString p t x lb ub len content w := by
  have h := (encMarker_extends x w).trans (encLen_extends p lb ub len _)
  unfold encString
  dsimp only
  split
  · exact append_extends _ (h.trans (alignEnc_extends _))
  · exact append_extends _ h

/-! ### Readers only move forward -/

/-- The result of a reader moves the cursor forward only. -/
structure ReadsForward {α : Type} (rbuf : Bits) (cur : Nat) (r : Except ErrKind (α × Nat)) : Prop where
  forward : ∀ x c, r = .ok (x, c) → Forward rbuf cur c

theorem ReadsForward.error {α : Type} (rbuf : Bits) (cur : Nat) (k : ErrKind) :
    ReadsForward (α := α) rbuf cur (.error k) := by
  constructor; intro x c h; cases h

theorem ReadsForward.ok {α : Type} {rbuf : Bits} {cur c : Nat} (x : α) (h : Forward rbuf cur c) :
    ReadsForward rbuf cur (.ok (x, c)) := by
  constructor; intro x' c' e; cases e; exact h

theorem ReadsForward.bind {α β : Type} {rbuf : Bits} {cur : Nat} {r : Except ErrKind (α × Nat)}
    {f : α × Nat → Except ErrKind (β × Nat)} (hr : ReadsForward rbuf cur r)
    (hf : ∀ x c, ReadsForward rbuf c (f (x, c))) : ReadsForward rbuf cur (r >>= f) := by
  constructor
  intro y c h
  match r, hr with
  | .error k, _ => cases h
  | .ok (x, c1), hr => exact (hr.forward x c1 rfl).trans ((hf x c1).forward y c h)

/-- A reader that runs from where a cursor-only read left off. -/
theorem ReadsForward.after {β : Type} {rbuf : Bits} {cur : Nat} {r : Except ErrKind Nat}
    {f : Nat → Except ErrKind (β × Nat)} (hr : ∀ c, r = .ok c → Forward rbuf cur c)
    (hf : ∀ c, ReadsForward rbuf c (f c)) : ReadsForward rbuf cur (r >>= f) := by
  constructor
  intro y c h
  match r, hr with
  | .error k, _ => cases h
  | .ok c1, hr => exact (hr c1 rfl).trans ((hf c1).forward y c h)

/-- A check on the way changes no cursor. -/
theorem ReadsForward.checked {β : Type} {rbuf : Bits} {cur : Nat} {r : Except ErrKind Unit}
    {f : Unit → Except ErrKind (β × Nat)} (hf : ReadsForward rbuf cur (f ())) :
    ReadsForward rbuf cur (r >>= f) := by
  constructor
  intro y c h
  match r with
  | .error k => cases h
  | .ok () => exact hf.forward y c h

theorem readBits_reads (rbuf : Bits) (cur n : Nat) : ReadsForward rbuf cur (readBits rbuf cur n) :=
  ⟨fun _ _ h => readBits_forward h⟩

theorem readUint_reads (rbuf : Bits) (cur n : Nat) : ReadsForward rbuf cur (readUint rbuf cur n) :=
  (readBits_reads ..).bind fun _ _ => .ok _ (.refl ..)

theorem readUintAligned_reads (rbuf : Bits) (cur n : Nat) :
    ReadsForward rbuf cur (readUintAligned rbuf cur n) :=
  .after (fun _ => alignDec_forward) fun _ => readUint_reads ..

theorem decMarker_forward {x : Bool} {rbuf : Bits} {cur c : Nat} (h : decMarker x rbuf cur = .ok c) :
    Forward rbuf cur c := by
  unfold decMarker at h
  split at h
  · cases hr : readBits rbuf cur 1 with
    | error k => rw [hr] at h; cases h
    | ok q =>
      obtain ⟨m, c'⟩ := q
      rw [hr] at h
      change (if m = [false] then Except.ok c' else Except.error ErrKind.unimplemented) = _ at h
      split at h
      · cases h; exact readBits_forward hr
      · cases h
  · cases h; exact .refl ..

theorem checkOffset_reads (rbuf : Bits) (r n c : Nat) : ReadsForward rbuf c (checkOffset r (n, c)) := by
  unfold checkOffset
  split
  · exact .ok _ (.refl ..)
  · exact .error ..

theorem cwnDecode_reads (p : Params) (rbuf : Bits) (fuel r cur : Nat) :
    ReadsForward rbuf cur (cwnDecode p rbuf fuel r cur) := by
  induction fuel generalizing r cur with
  | zero => exact .error ..
  | succ fuel ih =>
    unfold cwnDecode
    split
    · exact .error ..
    split
    · exact .ok _ (.refl ..)
    split
    · exact (readUint_reads ..).bind fun _ _ => checkOffset_reads ..
    split
    · exact (readUintAligned_reads ..).bind fun _ _ => checkOffset_reads ..
    split
    · exact (readUintAligned_reads ..).bind fun _ _ => checkOffset_reads ..
    split
    · exact (ih ..).bind fun _ _ => (readUintAligned_reads ..).bind fun _ _ => checkOffset_reads ..
    · exact (readUintAligned_reads ..).bind fun _ _ => checkOffset_reads ..

theorem decCwnValue_reads (p : Params) (lb ub : Int) (rbuf : Bits) (cur : Nat) :
    ReadsForward rbuf cur (decCwnValue p lb ub rbuf cur) :=
  (cwnDecode_reads ..).bind fun _ _ => .ok _ (.refl ..)

theorem decUnconLen_reads (rbuf : Bits) (cur : Nat) : ReadsForward rbuf cur (decUnconLen rbuf cur) := by
  refine .after (fun _ => alignDec_forward) fun c => (readBits_reads ..).bind fun s0 c0 => ?_
  dsimp only
  split
  · exact readUint_reads ..
  refine (readBits_reads ..).bind fun s1 c1 => ?_
  dsimp only
  split
  · exact readUint_reads ..
  · exact .error ..

theorem decLen_reads (p : Params) (lb ub : Option Int) (rbuf : Bits) (cur : Nat) :
    ReadsForward rbuf cur (decLen p lb ub rbuf cur) := by
  refine ReadsForward.bind ?_ fun n c => .checked (.checked (.ok _ (.refl ..)))
  unfold decLenRaw
  split
  · exact decCwnValue_reads ..
  · exact (decUnconLen_reads ..).bind fun _ _ => .ok _ (.refl ..)

theorem decStringLen_reads (p : Params) (x : Bool) (lb ub : Option Int) (rbuf : Bits) (cur : Nat) :
    ReadsForward rbuf cur (decStringLen p x lb ub rbuf cur) :=
  .after (fun _ => decMarker_forward) fun _ => (decLen_reads ..).bind fun _ _ => .ok _ (.refl ..)

theorem decContent_reads (t width len : Nat) (rbuf : Bits) (cur : Nat) :
    ReadsForward rbuf cur (decContent t width len rbuf cur) := by
  refine .after (fun c h => ?_) fun _ => readBits_reads ..
  unfold alignContent at h
  split at h
  · exact alignDec_forward h
  · cases h; exact .refl ..

end Sys2Proof.Laws
end

