-- ==== Sys2Proof/Laws/State.lean ====
section
/-! SUPPORT. One lemma per field per update of the state, so that no proof unfolds a record update. -/

namespace Sys2Proof.Laws

open Sys2Proof.Machine

/-! ### `State.complete` -/

@[simp] theorem complete_params (s : State) (x : Value) : (s.complete x).params = s.params := rfl

@[simp] theorem complete_pending (s : State) (x : Value) : (s.complete x).pending = s.pending := rfl

@[simp] theorem complete_issued (s : State) (x : Value) : (s.complete x).issued = s.issued := rfl

@[simp] theorem complete_mode (s : State) (x : Value) : (s.complete x).mode = s.mode := rfl

@[simp] theorem complete_wbuf (s : State) (x : Value) : (s.complete x).wbuf = s.wbuf := rfl

@[simp] theorem complete_rbuf (s : State) (x : Value) : (s.complete x).rbuf = s.rbuf := rfl

@[simp] theorem complete_cur (s : State) (x : Value) : (s.complete x).cur = s.cur := rfl

@[simp] theorem complete_res (s : State) (x : Value) : (s.complete x).res = some x := rfl

@[simp] theorem complete_err (s : State) (x : Value) : (s.complete x).err = s.err := rfl

@[simp] theorem complete_diag (s : State) (x : Value) : (s.complete x).diag = s.diag := rfl

@[simp] theorem complete_faultLog (s : State) (x : Value) :
    (s.complete x).faultLog = s.faultLog := rfl

@[simp] theorem complete_refused (s : State) (x : Value) : (s.complete x).refused = s.refused := rfl

@[simp] theorem complete_outcomes (s : State) (x : Value) :
    (s.complete x).outcomes = s.outcomes ++ [.ok x] := rfl

/-! ### `State.raise` -/

@[simp] theorem raise_params (s : State) (k : ErrKind) : (s.raise k).params = s.params := rfl

@[simp] theorem raise_pending (s : State) (k : ErrKind) : (s.raise k).pending = s.pending := rfl

@[simp] theorem raise_issued (s : State) (k : ErrKind) : (s.raise k).issued = s.issued := rfl

@[simp] theorem raise_mode (s : State) (k : ErrKind) : (s.raise k).mode = s.mode := rfl

@[simp] theorem raise_wbuf (s : State) (k : ErrKind) : (s.raise k).wbuf = s.wbuf := rfl

@[simp] theorem raise_rbuf (s : State) (k : ErrKind) : (s.raise k).rbuf = s.rbuf := rfl

@[simp] theorem raise_cur (s : State) (k : ErrKind) : (s.raise k).cur = s.cur := rfl

@[simp] theorem raise_res (s : State) (k : ErrKind) : (s.raise k).res = none := rfl

@[simp] theorem raise_err (s : State) (k : ErrKind) : (s.raise k).err = some k := rfl

@[simp] theorem raise_diag (s : State) (k : ErrKind) :
    (s.raise k).diag = Config.freeDiag s.issued := rfl

@[simp] theorem raise_faultLog (s : State) (k : ErrKind) :
    (s.raise k).faultLog = s.faultLog ++ [(k, s.issued)] := rfl

@[simp] theorem raise_refused (s : State) (k : ErrKind) : (s.raise k).refused = s.refused := rfl

@[simp] theorem raise_outcomes (s : State) (k : ErrKind) :
    (s.raise k).outcomes = s.outcomes ++ [.err k] := rfl

/-! ### `State.refuse` -/

@[simp] theorem refuse_params (s : State) (r : Reason) : (s.refuse r).params = s.params := rfl

@[simp] theorem refuse_pending (s : State) (r : Reason) : (s.refuse r).pending = s.pending := rfl

@[simp] theorem refuse_issued (s : State) (r : Reason) : (s.refuse r).issued = s.issued := rfl

@[simp] theorem refuse_mode (s : State) (r : Reason) : (s.refuse r).mode = s.mode := rfl

@[simp] theorem refuse_wbuf (s : State) (r : Reason) : (s.refuse r).wbuf = s.wbuf := rfl

@[simp] theorem refuse_rbuf (s : State) (r : Reason) : (s.refuse r).rbuf = s.rbuf := rfl

@[simp] theorem refuse_cur (s : State) (r : Reason) : (s.refuse r).cur = s.cur := rfl

@[simp] theorem refuse_res (s : State) (r : Reason) : (s.refuse r).res = none := rfl

@[simp] theorem refuse_err (s : State) (r : Reason) : (s.refuse r).err = s.err := rfl

@[simp] theorem refuse_diag (s : State) (r : Reason) : (s.refuse r).diag = s.diag := rfl

@[simp] theorem refuse_faultLog (s : State) (r : Reason) : (s.refuse r).faultLog = s.faultLog := rfl

@[simp] theorem refuse_refused (s : State) (r : Reason) : (s.refuse r).refused = true := rfl

@[simp] theorem refuse_outcomes (s : State) (r : Reason) :
    (s.refuse r).outcomes = s.outcomes ++ [.refused r] := rfl

/-! ### `State.scatterCursor` -/

@[simp] theorem scatterCursor_params (s : State) : (s.scatterCursor).params = s.params := rfl

@[simp] theorem scatterCursor_pending (s : State) : (s.scatterCursor).pending = s.pending := rfl

@[simp] theorem scatterCursor_issued (s : State) : (s.scatterCursor).issued = s.issued := rfl

@[simp] theorem scatterCursor_mode (s : State) : (s.scatterCursor).mode = s.mode := rfl

@[simp] theorem scatterCursor_wbuf (s : State) : (s.scatterCursor).wbuf = s.wbuf := rfl

@[simp] theorem scatterCursor_rbuf (s : State) : (s.scatterCursor).rbuf = s.rbuf := rfl

@[simp] theorem scatterCursor_cur (s : State) :
    (s.scatterCursor).cur = s.cur + Config.freeCursor s.issued % (s.rbuf.length - s.cur + 1) := rfl

@[simp] theorem scatterCursor_res (s : State) : (s.scatterCursor).res = s.res := rfl

@[simp] theorem scatterCursor_err (s : State) : (s.scatterCursor).err = s.err := rfl

@[simp] theorem scatterCursor_diag (s : State) : (s.scatterCursor).diag = s.diag := rfl

@[simp] theorem scatterCursor_faultLog (s : State) : (s.scatterCursor).faultLog = s.faultLog := rfl

@[simp] theorem scatterCursor_refused (s : State) : (s.scatterCursor).refused = s.refused := rfl

@[simp] theorem scatterCursor_outcomes (s : State) : (s.scatterCursor).outcomes = s.outcomes := rfl

/-! ### `State.issueNext` -/

@[simp] theorem issueNext_params (s : State) (c : Command) :
    (s.issueNext c).params = s.params := rfl

@[simp] theorem issueNext_pending (s : State) (c : Command) :
    (s.issueNext c).pending = c :: s.pending := rfl

@[simp] theorem issueNext_issued (s : State) (c : Command) :
    (s.issueNext c).issued = s.issued := rfl

@[simp] theorem issueNext_mode (s : State) (c : Command) : (s.issueNext c).mode = s.mode := rfl

@[simp] theorem issueNext_wbuf (s : State) (c : Command) : (s.issueNext c).wbuf = s.wbuf := rfl

@[simp] theorem issueNext_rbuf (s : State) (c : Command) : (s.issueNext c).rbuf = s.rbuf := rfl

@[simp] theorem issueNext_cur (s : State) (c : Command) : (s.issueNext c).cur = s.cur := rfl

@[simp] theorem issueNext_res (s : State) (c : Command) : (s.issueNext c).res = s.res := rfl

@[simp] theorem issueNext_err (s : State) (c : Command) : (s.issueNext c).err = s.err := rfl

@[simp] theorem issueNext_diag (s : State) (c : Command) : (s.issueNext c).diag = s.diag := rfl

@[simp] theorem issueNext_faultLog (s : State) (c : Command) :
    (s.issueNext c).faultLog = s.faultLog := rfl

@[simp] theorem issueNext_refused (s : State) (c : Command) :
    (s.issueNext c).refused = s.refused := rfl

@[simp] theorem issueNext_outcomes (s : State) (c : Command) :
    (s.issueNext c).outcomes = s.outcomes := rfl

/-! ### The state after reset -/

@[simp] theorem resetWith_params (p : Params) : (State.resetWith p).params = p := rfl

@[simp] theorem resetWith_pending (p : Params) : (State.resetWith p).pending = [] := rfl

@[simp] theorem resetWith_issued (p : Params) : (State.resetWith p).issued = 0 := rfl

@[simp] theorem resetWith_mode (p : Params) : (State.resetWith p).mode = .idle := rfl

@[simp] theorem resetWith_wbuf (p : Params) : (State.resetWith p).wbuf = [] := rfl

@[simp] theorem resetWith_rbuf (p : Params) : (State.resetWith p).rbuf = [] := rfl

@[simp] theorem resetWith_cur (p : Params) : (State.resetWith p).cur = 0 := rfl

@[simp] theorem resetWith_res (p : Params) : (State.resetWith p).res = none := rfl

@[simp] theorem resetWith_err (p : Params) : (State.resetWith p).err = none := rfl

@[simp] theorem resetWith_diag (p : Params) : (State.resetWith p).diag = Config.resetDiag := rfl

@[simp] theorem resetWith_faultLog (p : Params) : (State.resetWith p).faultLog = [] := rfl

@[simp] theorem resetWith_refused (p : Params) : (State.resetWith p).refused = false := rfl

@[simp] theorem resetWith_outcomes (p : Params) : (State.resetWith p).outcomes = [] := rfl

end Sys2Proof.Laws
end

