-- ==== Sys2Proof/Laws/Exec.lean ====
section
/-! SUPPORT. What a command can do: the outcomes of the common checks and of the two shapes of a
command, which shape each command has (`exec_shape`), and the one inversion lemma `exec_effect`, which
says everything any command can do to the state. -/

namespace Sys2Proof.Laws

open Sys2Proof.Machine

/-! ### The common checks (R68) -/

theorem admission_none_iff (need : Mode) (legal : Bool) (s : State) :
    admission need legal s = none ↔ s.err = none ∧ s.mode = need ∧ legal = true := by
  unfold admission
  by_cases he : s.err = none <;> by_cases hm : s.mode = need <;> cases legal <;> simp [he, hm]

theorem admission_afterError {s : State} (he : s.err ≠ none) (need : Mode) (legal : Bool) :
    admission need legal s = some .afterError := by simp [admission, he]

theorem admission_modeMismatch {s : State} {need : Mode} (he : s.err = none) (hm : s.mode ≠ need)
    (legal : Bool) : admission need legal s = some .modeMismatch := by simp [admission, he, hm]

theorem admission_badOperand {s : State} {need : Mode} (he : s.err = none) (hm : s.mode = need) :
    admission need false s = some .badOperand := by simp [admission, he, hm]

/-! ### The two shapes of a command (R225, R227) -/

theorem encodeCommand_refused {s : State} {legal : Bool} {r : Reason}
    (h : admission .enc legal s = some r) (checks : Except ErrKind Unit) (write : Bits → Bits) :
    encodeCommand legal checks write s = .next (s.refuse r) := by simp [encodeCommand, h]

theorem encodeCommand_error {s : State} {legal : Bool} {k : ErrKind}
    (h : admission .enc legal s = none) (write : Bits → Bits) :
    encodeCommand legal (.error k) write s = .next (s.raise k) := by simp [encodeCommand, h]

theorem encodeCommand_ok {s : State} {legal : Bool} {checks : Except ErrKind Unit}
    (h : admission .enc legal s = none) (hc : checks = .ok ()) (write : Bits → Bits) :
    encodeCommand legal checks write s =
      .next (({ s with wbuf := write s.wbuf } : State).complete .unit) := by
  subst hc; simp [encodeCommand, h]

theorem decodeCommand_refused {s : State} {legal : Bool} {r : Reason}
    (h : admission .dec legal s = some r) (checks : Except ErrKind Unit)
    (run : Bits → Nat → Except ErrKind (Value × Nat)) :
    decodeCommand legal checks run s = .next (s.refuse r) := by simp [decodeCommand, h]

theorem decodeCommand_checkError {s : State} {legal : Bool} {k : ErrKind}
    (h : admission .dec legal s = none) (run : Bits → Nat → Except ErrKind (Value × Nat)) :
    decodeCommand legal (.error k) run s = .next (s.raise k) := by simp [decodeCommand, h]

theorem decodeCommand_error {s : State} {legal : Bool} {checks : Except ErrKind Unit}
    {run : Bits → Nat → Except ErrKind (Value × Nat)} {k : ErrKind}
    (h : admission .dec legal s = none) (hc : checks = .ok ()) (hr : run s.rbuf s.cur = .error k) :
    decodeCommand legal checks run s = .next (s.scatterCursor.raise k) := by
  subst hc; simp [decodeCommand, h, hr]

theorem decodeCommand_ok {s : State} {legal : Bool} {checks : Except ErrKind Unit}
    {run : Bits → Nat → Except ErrKind (Value × Nat)} {x : Value} {c : Nat}
    (h : admission .dec legal s = none) (hc : checks = .ok ())
    (hr : run s.rbuf s.cur = .ok (x, c)) :
    decodeCommand legal checks run s = .next (({ s with cur := c } : State).complete x) := by
  subst hc; simp [decodeCommand, h, hr]

/-! ### The cursor after an error (R227) -/

theorem le_scatterCursor_cur (s : State) : s.cur ≤ s.scatterCursor.cur := by
  simp

theorem scatterCursor_cur_le {s : State} (h : s.cur ≤ s.rbuf.length) :
    s.scatterCursor.cur ≤ s.rbuf.length := by
  have : Config.freeCursor s.issued % (s.rbuf.length - s.cur + 1) < s.rbuf.length - s.cur + 1 :=
    Nat.mod_lt _ (by omega)
  simp; omega

/-! ### Everything a command can do -/

/-- The effects of a command on the state, each with what is known where it happens. -/
inductive Effect (s : State) : State → Prop where
  /-- Refused (R226). -/
  | refused (r : Reason) : Effect s (s.refuse r)
  /-- An error of an encode command: the buffer is unchanged (R227). -/
  | encodeError (k : ErrKind) (hm : s.mode = .enc) (he : s.err = none) : Effect s (s.raise k)
  /-- An error of a decode command: the cursor is anywhere ahead in the buffer (R227). -/
  | decodeError (k : ErrKind) (c : Nat) (hm : s.mode = .dec) (he : s.err = none)
      (hc : Forward s.rbuf s.cur c) : Effect s (({ s with cur := c } : State).raise k)
  /-- A successful encode command: the buffer is extended (R24). -/
  | encoded (w : Bits) (hm : s.mode = .enc) (he : s.err = none) (hw : s.wbuf <+: w) :
      Effect s (({ s with wbuf := w } : State).complete .unit)
  /-- A successful decode command: the cursor moves forward inside the buffer (R25). -/
  | decoded (x : Value) (c : Nat) (hm : s.mode = .dec) (he : s.err = none)
      (hc : Forward s.rbuf s.cur c) : Effect s (({ s with cur := c } : State).complete x)
  /-- FINISH (R112). -/
  | finished (hm : s.mode = .enc) (he : s.err = none) :
      Effect s (({ s with mode := .idle, wbuf := [] } : State).complete
        (.octets (finishOctets s.wbuf)))
  /-- NEW_ENC, NEW_DEC and RELEASE (R110, R111, R113). -/
  | renewed (m : Mode) (b : Bits) (h8 : b.length % 8 = 0) (hb : m ≠ .dec → b = []) :
      Effect s (({ s with mode := m, wbuf := [], rbuf := b, cur := 0, err := none } :
        State).complete .unit)

theorem encodeCommand_effect {legal : Bool} {checks : Except ErrKind Unit} {write : Bits → Bits}
    (hw : ∀ w, w <+: write w) (s : State) :
    ∃ t, encodeCommand legal checks write s = .next t ∧ Effect s t := by
  cases ha : admission .enc legal s with
  | some r => exact ⟨_, encodeCommand_refused ha .., .refused r⟩
  | none =>
    obtain ⟨he, hm, -⟩ := (admission_none_iff ..).1 ha
    cases checks with
    | error k => exact ⟨_, encodeCommand_error ha _, .encodeError k hm he⟩
    | ok u => exact ⟨_, encodeCommand_ok ha rfl _, .encoded _ hm he (hw _)⟩

theorem decodeCommand_effect {legal : Bool} {checks : Except ErrKind Unit}
    {run : Bits → Nat → Except ErrKind (Value × Nat)}
    (hr : ∀ rbuf cur, ReadsForward rbuf cur (run rbuf cur)) (s : State) :
    ∃ t, decodeCommand legal checks run s = .next t ∧ Effect s t := by
  cases ha : admission .dec legal s with
  | some r => exact ⟨_, decodeCommand_refused ha .., .refused r⟩
  | none =>
    obtain ⟨he, hm, -⟩ := (admission_none_iff ..).1 ha
    cases checks with
    | error k => exact ⟨_, decodeCommand_checkError ha _, .decodeError k s.cur hm he (.refl ..)⟩
    | ok u =>
      cases hrun : run s.rbuf s.cur with
      | error k =>
        exact ⟨_, decodeCommand_error ha rfl hrun, .decodeError k s.scatterCursor.cur hm he
          ⟨le_scatterCursor_cur s, scatterCursor_cur_le⟩⟩
      | ok q =>
        exact ⟨_, decodeCommand_ok ha rfl hrun, .decoded q.1 q.2 hm he ((hr _ _).forward _ _ hrun)⟩

/-! ### What each command's write and read do to the buffer -/

theorem encIntForm_extends (p : Params) (lb ub : Option Int) (v : Int) (w : Bits) :
    w <+: encIntForm p lb ub v w := by
  unfold encIntForm
  split
  · exact encCwn_extends ..
  · exact append_extends _ (encUnconLen_extends ..)
  · exact append_extends _ (encUnconLen_extends ..)

theorem encOrdinal_extends (p : Params) (x : Bool) (lb ub v : Int) (w : Bits) :
    w <+: encOrdinal p x lb ub v w :=
  (encMarker_extends x w).trans (encCwn_extends ..)

theorem readBool_reads (rbuf : Bits) (cur : Nat) : ReadsForward rbuf cur (readBool rbuf cur) :=
  (readBits_reads ..).bind fun _ _ => .ok _ (.refl ..)

theorem readValue_reads (n : Nat) (rbuf : Bits) (cur : Nat) :
    ReadsForward rbuf cur (readValue n rbuf cur) :=
  (readBits_reads ..).bind fun _ _ => .ok _ (.refl ..)

theorem runAlignD_reads (rbuf : Bits) (cur : Nat) : ReadsForward rbuf cur (runAlignD rbuf cur) :=
  .after (fun _ => alignDec_forward) fun _ => .ok _ (.refl ..)

theorem decIntOctets_reads (rbuf : Bits) (cur : Nat) :
    ReadsForward rbuf cur (decIntOctets rbuf cur) := by
  refine (decUnconLen_reads ..).bind fun k c => ?_
  dsimp only
  split
  · exact readBits_reads ..
  · exact .error ..

theorem decUncon_reads (rbuf : Bits) (cur : Nat) : ReadsForward rbuf cur (decUncon rbuf cur) :=
  (decIntOctets_reads ..).bind fun _ _ => .ok _ (.refl ..)

theorem decIntForm_reads (p : Params) (lb ub : Option Int) (rbuf : Bits) (cur : Nat) :
    ReadsForward rbuf cur (decIntForm p lb ub rbuf cur) := by
  unfold decIntForm
  split
  · exact decCwnValue_reads ..
  · exact (decIntOctets_reads ..).bind fun _ _ => .ok _ (.refl ..)
  · refine (decUncon_reads ..).bind fun v c => ?_
    exact .checked (.ok _ (.refl ..))

theorem runDecInt_reads (p : Params) (x : Bool) (lb ub : Option Int) (rbuf : Bits) (cur : Nat) :
    ReadsForward rbuf cur (runDecInt p x lb ub rbuf cur) := by
  refine .after (fun _ => decMarker_forward) fun c0 => (decIntForm_reads ..).bind fun v c => ?_
  exact .ok _ (.refl ..)

theorem runDecOrdinal_reads (p : Params) (x : Bool) (lb ub : Int) (rbuf : Bits) (cur : Nat) :
    ReadsForward rbuf cur (runDecOrdinal p x lb ub rbuf cur) := by
  refine .after (fun _ => decMarker_forward) fun c0 => (decCwnValue_reads ..).bind fun v c => ?_
  exact .ok _ (.refl ..)

theorem runDecLen_reads (p : Params) (lb ub : Option Int) (rbuf : Bits) (cur : Nat) :
    ReadsForward rbuf cur (runDecLen p lb ub rbuf cur) :=
  (decLen_reads ..).bind fun _ _ => .ok _ (.refl ..)

theorem runDecBitStr_reads (p : Params) (x : Bool) (lb ub : Option Int) (rbuf : Bits) (cur : Nat) :
    ReadsForward rbuf cur (runDecBitStr p x lb ub rbuf cur) := by
  refine (decStringLen_reads ..).bind fun len c => ?_
  refine ReadsForward.checked ((decContent_reads ..).bind fun b c1 => ?_)
  exact .ok _ (.refl ..)

theorem runDecOctStr_reads (p : Params) (x : Bool) (lb ub : Option Int) (rbuf : Bits) (cur : Nat) :
    ReadsForward rbuf cur (runDecOctStr p x lb ub rbuf cur) := by
  refine (decStringLen_reads ..).bind fun len c => ?_
  refine ReadsForward.checked ((decContent_reads ..).bind fun b c1 => ?_)
  exact .ok _ (.refl ..)

theorem runDecCharStr_reads (p : Params) (x : Bool) (lb ub : Option Int) (rbuf : Bits) (cur : Nat) :
    ReadsForward rbuf cur (runDecCharStr p x lb ub rbuf cur) := by
  refine (decStringLen_reads ..).bind fun len c => ?_
  refine (decContent_reads ..).bind fun b c1 => ?_
  exact .ok _ (.refl ..)

theorem runDecSeqHdr_reads (x : Bool) (n : Nat) (rbuf : Bits) (cur : Nat) :
    ReadsForward rbuf cur (runDecSeqHdr x n rbuf cur) :=
  .after (fun _ => decMarker_forward) fun _ => readValue_reads ..

/-! ### Which shape a command has -/

@[simp] theorem lowerBoundLegal_eq (lb : Option Int) : lowerBoundLegal lb = lengthBoundOk lb := by
  cases lb <;> rfl

@[simp] theorem encLenLegal_eq (lb : Option Int) (v : Int) :
    encLenLegal lb v = (lengthBoundOk lb && decide (0 ≤ v)) := by
  rw [encLenLegal, lowerBoundLegal_eq, Bool.and_comm]

/-! One equation for each command with a mode: its checks and its write or its reads. -/

theorem exec_appendBits (bits : Bits) (s : State) :
    exec (.appendBits bits) s =
      encodeCommand true (.ok ()) (fun w => Machine.appendBits w bits) s := rfl

theorem exec_alignE (s : State) :
    exec .alignE s =
      encodeCommand true (.ok ()) alignEnc s := rfl

theorem exec_readBit (s : State) :
    exec .readBit s =
      decodeCommand true (.ok ()) readBool s := rfl

theorem exec_readBits (n : Nat) (s : State) :
    exec (.readBits n) s =
      decodeCommand true (.ok ()) (readValue n) s := rfl

theorem exec_alignD (s : State) :
    exec .alignD s =
      decodeCommand true (.ok ()) runAlignD s := rfl

theorem exec_encBool (b : Bool) (s : State) :
    exec (.encBool b) s =
      encodeCommand true (.ok ()) (fun w => Machine.appendBits w [b]) s := rfl

theorem exec_decBool (s : State) :
    exec .decBool s =
      decodeCommand true (.ok ()) readBool s := rfl

theorem exec_encInt (e x : Bool) (lb ub : Option Int) (v : Int) (s : State) :
    exec (.encInt e x lb ub v) s =
      encodeCommand true (encIntChecks e lb ub v)
        (fun w => encIntForm s.params lb ub v (encMarker x w)) s := rfl

theorem exec_decInt (x : Bool) (lb ub : Option Int) (s : State) :
    exec (.decInt x lb ub) s =
      decodeCommand true (.ok ()) (runDecInt s.params x lb ub) s := rfl

theorem exec_encEnum (e x : Bool) (lb ub v : Int) (s : State) :
    exec (.encEnum e x lb ub v) s =
      encodeCommand true (ordinalChecks e lb ub v) (encOrdinal s.params x lb ub v) s := rfl

theorem exec_decEnum (x : Bool) (lb ub : Int) (s : State) :
    exec (.decEnum x lb ub) s =
      decodeCommand true (.ok ()) (runDecOrdinal s.params x lb ub) s := rfl

theorem exec_encChoice (e x : Bool) (lb ub v : Int) (s : State) :
    exec (.encChoice e x lb ub v) s =
      encodeCommand true (ordinalChecks e lb ub v) (encOrdinal s.params x lb ub v) s := rfl

theorem exec_decChoice (x : Bool) (lb ub : Int) (s : State) :
    exec (.decChoice x lb ub) s =
      decodeCommand true (.ok ()) (runDecOrdinal s.params x lb ub) s := rfl

theorem exec_encLen (n : Bool) (lb ub : Option Int) (v : Int) (s : State) :
    exec (.encLen n lb ub v) s =
      encodeCommand (lengthBoundOk lb && decide (0 ≤ v)) (encLenChecks n lb ub v)
        (encLen s.params lb ub v.toNat) s := by
  simp only [exec, execEncLen, encLenLegal_eq]

theorem exec_decLen (n : Bool) (lb ub : Option Int) (s : State) :
    exec (.decLen n lb ub) s =
      decodeCommand (lengthBoundOk lb) (checkNotSmall n) (runDecLen s.params lb ub) s := by
  simp only [exec, execDecLen, lowerBoundLegal_eq]

theorem exec_encBitStr (e x : Bool) (lb ub : Option Int) (bits : Bits) (s : State) :
    exec (.encBitStr e x lb ub bits) s =
      encodeCommand (lengthBoundOk lb) (limitedStringChecks e lb ub bits.length)
        (encString s.params bitStrAlignThreshold x lb ub bits.length bits) s := by
  simp only [exec, execEncBitStr, lowerBoundLegal_eq]

theorem exec_decBitStr (x : Bool) (lb ub : Option Int) (s : State) :
    exec (.decBitStr x lb ub) s =
      decodeCommand (lengthBoundOk lb) (.ok ()) (runDecBitStr s.params x lb ub) s := by
  simp only [exec, execDecBitStr, lowerBoundLegal_eq]

theorem exec_encOctStr (e x : Bool) (lb ub : Option Int) (o : List Octet) (s : State) :
    exec (.encOctStr e x lb ub o) s =
      encodeCommand (lengthBoundOk lb) (limitedStringChecks e lb ub o.length)
        (encString s.params octStrAlignThreshold x lb ub o.length (octetsToBits o)) s := by
  simp only [exec, execEncOctStr, lowerBoundLegal_eq]

theorem exec_decOctStr (x : Bool) (lb ub : Option Int) (s : State) :
    exec (.decOctStr x lb ub) s =
      decodeCommand (lengthBoundOk lb) (.ok ()) (runDecOctStr s.params x lb ub) s := by
  simp only [exec, execDecOctStr, lowerBoundLegal_eq]

theorem exec_encVisStr (e x : Bool) (lb ub : Option Int) (o : List Octet) (s : State) :
    exec (.encVisStr e x lb ub o) s =
      encodeCommand (lengthBoundOk lb) (charStringChecks e lb ub o.length)
        (encString s.params charStrAlignThreshold x lb ub o.length (octetsToBits o)) s := by
  simp only [exec, execEncVisStr, encodeCharStr, lowerBoundLegal_eq]

theorem exec_decVisStr (x : Bool) (lb ub : Option Int) (s : State) :
    exec (.decVisStr x lb ub) s =
      decodeCommand (lengthBoundOk lb) (.ok ()) (runDecCharStr s.params x lb ub) s := by
  simp only [exec, execDecVisStr, decodeCharStr, lowerBoundLegal_eq]

theorem exec_encPrtStr (e x : Bool) (lb ub : Option Int) (o : List Octet) (s : State) :
    exec (.encPrtStr e x lb ub o) s =
      encodeCommand (lengthBoundOk lb) (charStringChecks e lb ub o.length)
        (encString s.params charStrAlignThreshold x lb ub o.length (octetsToBits o)) s := by
  simp only [exec, execEncPrtStr, encodeCharStr, lowerBoundLegal_eq]

theorem exec_decPrtStr (x : Bool) (lb ub : Option Int) (s : State) :
    exec (.decPrtStr x lb ub) s =
      decodeCommand (lengthBoundOk lb) (.ok ()) (runDecCharStr s.params x lb ub) s := by
  simp only [exec, execDecPrtStr, decodeCharStr, lowerBoundLegal_eq]

theorem exec_encUtf8Str (e x : Bool) (lb ub : Option Int) (o : List Octet) (s : State) :
    exec (.encUtf8Str e x lb ub o) s =
      encodeCommand (lengthBoundOk lb) (charStringChecks e lb ub o.length)
        (encString s.params charStrAlignThreshold x lb ub o.length (octetsToBits o)) s := by
  simp only [exec, execEncUtf8Str, encodeCharStr, lowerBoundLegal_eq]

theorem exec_decUtf8Str (x : Bool) (lb ub : Option Int) (s : State) :
    exec (.decUtf8Str x lb ub) s =
      decodeCommand (lengthBoundOk lb) (.ok ()) (runDecCharStr s.params x lb ub) s := by
  simp only [exec, execDecUtf8Str, decodeCharStr, lowerBoundLegal_eq]

theorem exec_encSeqHdr (e x : Bool) (bits : Bits) (s : State) :
    exec (.encSeqHdr e x bits) s =
      encodeCommand true (checkNotExtended e)
        (fun w => Machine.appendBits (encMarker x w) bits) s := rfl

theorem exec_decSeqHdr (x : Bool) (n : Nat) (s : State) :
    exec (.decSeqHdr x n) s =
      decodeCommand true (.ok ()) (runDecSeqHdr x n) s := rfl

/-- What `exec i s` is for a command `i` with a mode: FINISH, an encode command or a decode command,
whose operand check is `Instr.wellFormed` (R66, R67). -/
inductive Shape (i : Instr) (s : State) : Mode → Prop where
  | finish (h : i = .finish) : Shape i s .enc
  | encode (checks : Except ErrKind Unit) (write : Bits → Bits)
      (h : exec i s = encodeCommand i.wellFormed checks write s) (hw : ∀ w, w <+: write w) :
      Shape i s .enc
  | decode (checks : Except ErrKind Unit) (run : Bits → Nat → Except ErrKind (Value × Nat))
      (h : exec i s = decodeCommand i.wellFormed checks run s)
      (hr : ∀ rbuf cur, ReadsForward rbuf cur (run rbuf cur)) : Shape i s .dec

/-- The shape of every command that needs a mode. -/
theorem exec_shape {i : Instr} {m : Mode} (s : State) (hm : requiredMode i = some m) :
    Shape i s m := by
  cases i with
  | newEnc => cases hm
  | newDec bytes => cases hm
  | release => cases hm
  | finish => cases hm; exact .finish rfl
  | appendBits bits =>
    cases hm
    exact .encode _ _ (exec_appendBits ..) fun _ => append_extends _ List.prefix_rfl
  | alignE =>
    cases hm
    exact .encode _ _ (exec_alignE ..) fun _ => alignEnc_extends _
  | encBool b =>
    cases hm
    exact .encode _ _ (exec_encBool ..) fun _ => append_extends _ List.prefix_rfl
  | encInt e x lb ub v =>
    cases hm
    exact .encode _ _ (exec_encInt ..) fun _ => (encMarker_extends ..).trans (encIntForm_extends ..)
  | encEnum e x lb ub v =>
    cases hm
    exact .encode _ _ (exec_encEnum ..) fun _ => encOrdinal_extends ..
  | encLen n lb ub v =>
    cases hm
    exact .encode _ _ (exec_encLen ..) fun _ => encLen_extends ..
  | encBitStr e x lb ub bits =>
    cases hm
    exact .encode _ _ (exec_encBitStr ..) fun _ => encString_extends ..
  | encOctStr e x lb ub o =>
    cases hm
    exact .encode _ _ (exec_encOctStr ..) fun _ => encString_extends ..
  | encVisStr e x lb ub o =>
    cases hm
    exact .encode _ _ (exec_encVisStr ..) fun _ => encString_extends ..
  | encPrtStr e x lb ub o =>
    cases hm
    exact .encode _ _ (exec_encPrtStr ..) fun _ => encString_extends ..
  | encUtf8Str e x lb ub o =>
    cases hm
    exact .encode _ _ (exec_encUtf8Str ..) fun _ => encString_extends ..
  | encChoice e x lb ub v =>
    cases hm
    exact .encode _ _ (exec_encChoice ..) fun _ => encOrdinal_extends ..
  | encSeqHdr e x bits =>
    cases hm
    exact .encode _ _ (exec_encSeqHdr ..) fun _ => append_extends _ (encMarker_extends ..)
  | readBit =>
    cases hm
    exact .decode _ _ (exec_readBit ..) fun _ _ => readBool_reads ..
  | readBits n =>
    cases hm
    exact .decode _ _ (exec_readBits ..) fun _ _ => readValue_reads ..
  | alignD =>
    cases hm
    exact .decode _ _ (exec_alignD ..) fun _ _ => runAlignD_reads ..
  | decBool =>
    cases hm
    exact .decode _ _ (exec_decBool ..) fun _ _ => readBool_reads ..
  | decInt x lb ub =>
    cases hm
    exact .decode _ _ (exec_decInt ..) fun _ _ => runDecInt_reads ..
  | decEnum x lb ub =>
    cases hm
    exact .decode _ _ (exec_decEnum ..) fun _ _ => runDecOrdinal_reads ..
  | decLen n lb ub =>
    cases hm
    exact .decode _ _ (exec_decLen ..) fun _ _ => runDecLen_reads ..
  | decBitStr x lb ub =>
    cases hm
    exact .decode _ _ (exec_decBitStr ..) fun _ _ => runDecBitStr_reads ..
  | decOctStr x lb ub =>
    cases hm
    exact .decode _ _ (exec_decOctStr ..) fun _ _ => runDecOctStr_reads ..
  | decVisStr x lb ub =>
    cases hm
    exact .decode _ _ (exec_decVisStr ..) fun _ _ => runDecCharStr_reads ..
  | decPrtStr x lb ub =>
    cases hm
    exact .decode _ _ (exec_decPrtStr ..) fun _ _ => runDecCharStr_reads ..
  | decUtf8Str x lb ub =>
    cases hm
    exact .decode _ _ (exec_decUtf8Str ..) fun _ _ => runDecCharStr_reads ..
  | decChoice x lb ub =>
    cases hm
    exact .decode _ _ (exec_decChoice ..) fun _ _ => runDecOrdinal_reads ..
  | decSeqHdr x n =>
    cases hm
    exact .decode _ _ (exec_decSeqHdr ..) fun _ _ => runDecSeqHdr_reads ..

/-- `execFinish`, when it is taken (R112). -/
theorem execFinish_ok {s : State} (h : admission .enc true s = none) :
    execFinish s = .next (({ s with mode := .idle, wbuf := [] } : State).complete
      (.octets (finishOctets s.wbuf))) := by simp [execFinish, h]

theorem execFinish_refused {s : State} {r : Reason} (h : admission .enc true s = some r) :
    execFinish s = .next (s.refuse r) := by simp [execFinish, h]

theorem execFinish_effect (s : State) : ∃ t, execFinish s = .next t ∧ Effect s t := by
  cases ha : admission .enc true s with
  | some r => exact ⟨_, execFinish_refused ha, .refused r⟩
  | none =>
    obtain ⟨he, hm, -⟩ := (admission_none_iff ..).1 ha
    exact ⟨_, execFinish_ok ha, .finished hm he⟩

/-- Every command answers a next state, and that state is the effect of one of the seven kinds. -/
theorem exec_effect (i : Instr) (s : State) : ∃ t, exec i s = .next t ∧ Effect s t := by
  cases hm : requiredMode i with
  | none =>
    cases i with
    | newEnc => exact ⟨_, rfl, .renewed .enc [] rfl fun _ => rfl⟩
    | newDec bytes =>
      exact ⟨_, rfl, .renewed .dec (octetsToBits bytes) (by simp) fun h => absurd rfl h⟩
    | release => exact ⟨_, rfl, .renewed .idle [] rfl fun _ => rfl⟩
    | _ => cases hm
  | some m =>
    cases exec_shape s hm with
    | finish h => subst h; exact execFinish_effect s
    | encode checks write h hw => rw [h]; exact encodeCommand_effect hw s
    | decode checks run h hr => rw [h]; exact decodeCommand_effect hr s

/-- A command that fails a check of R68 is refused with that check's reason. -/
theorem exec_refused {i : Instr} {m : Mode} {s : State} {r : Reason} (hm : requiredMode i = some m)
    (ha : admission m i.wellFormed s = some r) : exec i s = .next (s.refuse r) := by
  cases exec_shape s hm with
  | finish h => subst h; exact execFinish_refused ha
  | encode checks write h hw => rw [h]; exact encodeCommand_refused ha ..
  | decode checks run h hr => rw [h]; exact decodeCommand_refused ha ..

/-- What any command does, from the state it answers. -/
theorem effect_of_exec {i : Instr} {s t : State} (h : exec i s = .next t) : Effect s t := by
  obtain ⟨t', h', e⟩ := exec_effect i s
  rw [h] at h'
  cases h'
  exact e

end Sys2Proof.Laws
end

