-- ==== Sys2Proof/Laws/Forms.lean ====
section
/-! SUPPORT. The constrained whole number and the length determinant: the recursion bound is never
reached, so the procedures follow spec/41_whole_number.md R120 and R121 as written, and what one side
writes the other side reads back. -/

namespace Sys2Proof.Laws

open Sys2Proof.Machine

/-! ### The recursion bound -/

/-- The octet count of a large range needs fewer bits than the range (R120). -/
theorem nbits_octets_lt {r : Nat} (h : 65536 < r) : nbits (nonnegOctets (r - 1)) < nbits r := by
  have hb : 17 ≤ nbits r := by
    by_contra hc
    have : r ≤ 2 ^ 16 := (nbits_le_iff r 16).1 (by omega)
    omega
  have hr := le_two_pow_nbits r
  have hK : nonnegOctets (r - 1) ≤ (nbits r + 7) / 8 := by
    rw [nonnegOctets_le_iff]
    refine ⟨by omega, ?_⟩
    have : 2 ^ nbits r ≤ 2 ^ (8 * ((nbits r + 7) / 8)) := Nat.pow_le_pow_right (by decide) (by omega)
    omega
  have hlt : nbits r - 1 < 2 ^ (nbits r - 1) := Nat.lt_two_pow_self
  have : nbits (nonnegOctets (r - 1)) ≤ nbits r - 1 := (nbits_le_iff _ _).2 (by omega)
  omega

theorem cwnEncode_fuel (p : Params) {f g r : Nat} (hf : nbits r < f) (hg : nbits r < g) (n : Nat)
    (w : Bits) : cwnEncode p f r n w = cwnEncode p g r n w := by
  induction f generalizing g r n w with
  | zero => omega
  | succ f ih =>
    obtain ⟨g, rfl⟩ : ∃ g', g = g' + 1 := ⟨g - 1, by omega⟩
    unfold cwnEncode
    by_cases hr : r ≤ 65536
    · simp only [hr, if_true]
    · have hlt := nbits_octets_lt (r := r) (by omega)
      simp only [hr, if_false]
      rw [ih (r := nonnegOctets (r - 1)) (g := g) (by omega) (by omega)]

/-- `EncCWN` over r values, as R120 writes it. -/
theorem cwnEncode_eq (p : Params) (r n : Nat) (w : Bits) :
    cwnEncode p (cwnFuel r) r n w =
      if r = 1 then w
      else if r < 256 ∨ (r = 256 ∧ p.cwn256Aligned = false) then w ++ uintBits n (nbits r)
      else if r = 256 then alignEnc w ++ uintBits n 8
      else if r ≤ 65536 then alignEnc w ++ uintBits n 16
      else if p.cwnLargeForm = .x691LengthPrefixed then
        alignEnc (cwnEncode p (cwnFuel (nonnegOctets (r - 1))) (nonnegOctets (r - 1))
          (nonnegOctets n - 1) w) ++ uintBits n (8 * nonnegOctets n)
      else alignEnc w ++ uintBits n (8 * nonnegOctets (r - 1)) := by
  conv_lhs => rw [cwnFuel]; unfold cwnEncode
  have hc : (cwnUnaligned p r = true) = (r < 256 ∨ (r = 256 ∧ p.cwn256Aligned = false)) := by
    simp [cwnUnaligned]
  simp only [hc, appendBits]
  by_cases hr : r ≤ 65536
  · simp only [hr, if_true]
  · have hlt := nbits_octets_lt (r := r) (by omega)
    simp only [hr, if_false]
    rw [cwnEncode_fuel p (r := nonnegOctets (r - 1)) (f := nbits r)
      (g := cwnFuel (nonnegOctets (r - 1))) (by omega) (by simp [cwnFuel])]
    cases p.cwnLargeForm <;> simp

theorem cwnDecode_fuel (p : Params) (rbuf : Bits) {f g r : Nat} (hf : nbits r < f)
    (hg : nbits r < g) (cur : Nat) : cwnDecode p rbuf f r cur = cwnDecode p rbuf g r cur := by
  induction f generalizing g r cur with
  | zero => omega
  | succ f ih =>
    obtain ⟨g, rfl⟩ : ∃ g', g = g' + 1 := ⟨g - 1, by omega⟩
    unfold cwnDecode
    by_cases hr : r ≤ 65536
    · simp only [hr, if_true]
    · have hlt := nbits_octets_lt (r := r) (by omega)
      simp only [hr, if_false]
      rw [ih (r := nonnegOctets (r - 1)) (g := g) (by omega) (by omega)]

/-- `DecCWN` over r values, as R121 writes it. -/
theorem cwnDecode_eq (p : Params) (rbuf : Bits) (r cur : Nat) :
    cwnDecode p rbuf (cwnFuel r) r cur =
      if r = 0 then .error .boundsViolation
      else if r = 1 then .ok (0, cur)
      else if r < 256 ∨ (r = 256 ∧ p.cwn256Aligned = false) then
        readUint rbuf cur (nbits r) >>= checkOffset r
      else if r = 256 then readUintAligned rbuf cur 8 >>= checkOffset r
      else if r ≤ 65536 then readUintAligned rbuf cur 16 >>= checkOffset r
      else if p.cwnLargeForm = .x691LengthPrefixed then
        cwnDecode p rbuf (cwnFuel (nonnegOctets (r - 1))) (nonnegOctets (r - 1)) cur >>= fun q =>
          readUintAligned rbuf q.2 (8 * (1 + q.1)) >>= checkOffset r
      else readUintAligned rbuf cur (8 * nonnegOctets (r - 1)) >>= checkOffset r := by
  conv_lhs => rw [cwnFuel]; unfold cwnDecode
  have hc : (cwnUnaligned p r = true) = (r < 256 ∨ (r = 256 ∧ p.cwn256Aligned = false)) := by
    simp [cwnUnaligned]
  simp only [hc]
  by_cases hr : r ≤ 65536
  · simp only [hr, if_true]
  · have hlt := nbits_octets_lt (r := r) (by omega)
    simp only [hr, if_false]
    rw [cwnDecode_fuel p rbuf (r := nonnegOctets (r - 1)) (f := nbits r)
      (g := cwnFuel (nonnegOctets (r - 1))) (by omega) (by simp [cwnFuel])]
    cases p.cwnLargeForm <;> simp

/-! ### What was written is read back -/

theorem readUint_at {rbuf w rest : Bits} {n k : Nat} (hn : n < 2 ^ k)
    (hr : rbuf = w ++ uintBits n k ++ rest) :
    readUint rbuf w.length k = .ok (n, (w ++ uintBits n k).length) := by
  unfold readUint
  rw [readBits_at hr rfl (by simp)]
  simp [bind, Except.bind, uint_uintBits hn]

theorem readUintAligned_at {rbuf w rest : Bits} {n k : Nat} (hn : n < 2 ^ k)
    (hr : rbuf = alignEnc w ++ uintBits n k ++ rest) :
    readUintAligned rbuf w.length k = .ok (n, (alignEnc w ++ uintBits n k).length) := by
  unfold readUintAligned
  rw [alignDec_at (w := w) (rest := uintBits n k ++ rest) (by simp [hr])]
  exact readUint_at hn hr

theorem checkOffset_ok {r n c : Nat} (h : n < r) : checkOffset r (n, c) = .ok (n, c) := by
  have : n ≤ r - 1 := by omega
  simp [checkOffset, this]

/-- `DecCWN` reads the offset that `EncCWN` wrote, with the cursor at its end (R120, R121). -/
theorem cwnDecode_encode (p : Params) {f r n : Nat} (hf : nbits r < f) (hn : n < r)
    {rbuf w rest : Bits} (hr : rbuf = cwnEncode p f r n w ++ rest) :
    cwnDecode p rbuf f r w.length = .ok (n, (cwnEncode p f r n w).length) := by
  induction f generalizing r n rest with
  | zero => omega
  | succ f ih =>
    have hpow : n < 2 ^ nbits r := lt_of_lt_of_le hn (le_two_pow_nbits r)
    unfold cwnDecode
    unfold cwnEncode at hr ⊢
    rw [if_neg (show ¬ r = 0 by omega)]
    split at hr
    · next h => simp only [h, if_true]; congr 2; omega
    next h1 =>
    simp only [h1, if_false]
    split at hr
    · next h =>
      simp only [h, if_true]
      rw [readUint_at hpow hr]
      exact checkOffset_ok hn
    next h2 =>
    simp only [h2]
    split at hr
    · next h =>
      subst h
      simp only [if_true]
      rw [readUintAligned_at (by omega) hr]
      exact checkOffset_ok hn
    next h3 =>
    simp only [h3, if_false]
    split at hr
    · next h =>
      simp only [h, if_true]
      rw [readUintAligned_at (by omega) hr]
      exact checkOffset_ok hn
    next h4 =>
    simp only [h4, if_false]
    have hKr : r - 1 < 2 ^ (8 * nonnegOctets (r - 1)) := lt_nonnegOctets _
    cases hform : p.cwnLargeForm
    · simp only [hform] at hr ⊢
      have hk1 := one_le_nonnegOctets n
      have hkK : nonnegOctets n ≤ nonnegOctets (r - 1) := nonnegOctets_mono (by omega)
      have hfuel : nbits (nonnegOctets (r - 1)) < f := by
        have := nbits_octets_lt (r := r) (by omega)
        omega
      rw [ih (r := nonnegOctets (r - 1)) (n := nonnegOctets n - 1) hfuel (by omega)
        (rest := zeros (pad (cwnEncode p f (nonnegOctets (r - 1)) (nonnegOctets n - 1) w).length)
          ++ uintBits n (8 * nonnegOctets n) ++ rest)
        (by simp [hr, appendBits, alignEnc])]
      change readUintAligned rbuf _ (8 * (1 + (nonnegOctets n - 1))) >>= _ = _
      rw [show 1 + (nonnegOctets n - 1) = nonnegOctets n by omega,
        readUintAligned_at (lt_nonnegOctets n) hr]
      exact checkOffset_ok hn
    · simp only [hform] at hr ⊢
      rw [readUintAligned_at (by omega) hr]
      exact checkOffset_ok hn

/-- `lb + DecCWN(lb, ub)` reads the value that `EncCWN(lb, ub, v)` wrote (R128). -/
theorem decCwnValue_encCwn (p : Params) {lb ub v : Int} (hl : lb ≤ v) (hu : v ≤ ub)
    {rbuf w rest : Bits} (hr : rbuf = encCwn p lb ub v w ++ rest) :
    decCwnValue p lb ub rbuf w.length = .ok (v, (encCwn p lb ub v w).length) := by
  unfold decCwnValue decCwn
  unfold encCwn at hr ⊢
  have h1 : ((v - lb).toNat : Int) = v - lb := Int.toNat_of_nonneg (by omega)
  have h2 : ((ub - lb + 1).toNat : Int) = ub - lb + 1 := Int.toNat_of_nonneg (by omega)
  rw [cwnDecode_encode p (f := cwnFuel (rangeSize lb ub)) (by simp [cwnFuel])
    (by unfold rangeSize; omega) hr]
  simp only [bind, Except.bind]
  rw [h1]
  congr 2; omega

/-- `DecUnconLen` reads either form of a length below its limit; a two-octet form of a small length
is accepted (R153). -/
theorem decUnconLen_at {rbuf w rest hdr : Bits} {n : Nat}
    (hh : (n < 128 ∧ hdr = false :: uintBits n 7) ∨
      (n < 16384 ∧ hdr = true :: false :: uintBits n 14))
    (hr : rbuf = alignEnc w ++ hdr ++ rest) :
    decUnconLen rbuf w.length = .ok (n, (alignEnc w ++ hdr).length) := by
  unfold decUnconLen
  rw [alignDec_at (w := w) (rest := hdr ++ rest) (by simp [hr])]
  simp only [bind, Except.bind]
  rcases hh with ⟨hn, rfl⟩ | ⟨hn, rfl⟩
  · rw [readBit_at (front := alignEnc w) (b := false) (rest := uintBits n 7 ++ rest)
      (by simp [hr]) rfl]
    simp only [if_true]
    have := readUint_at (rbuf := rbuf) (w := alignEnc w ++ [false]) (rest := rest) (n := n) (k := 7)
      (by omega) (by simp [hr])
    simp only [List.length_append, List.length_singleton] at this
    rw [this]
    simp
  · rw [readBit_at (front := alignEnc w) (b := true) (rest := false :: uintBits n 14 ++ rest)
      (by simp [hr]) rfl]
    simp only [List.cons.injEq, Bool.true_eq_false, false_and, if_false]
    rw [readBit_at (front := alignEnc w ++ [true]) (b := false) (rest := uintBits n 14 ++ rest)
      (by simp [hr]) (by simp)]
    simp only [if_true]
    have := readUint_at (rbuf := rbuf) (w := alignEnc w ++ [true, false]) (rest := rest) (n := n)
      (k := 14) (by omega) (by simp [hr])
    simp only [List.length_append, List.length_cons, List.length_nil, Nat.add_assoc] at this
    simp only [Nat.add_assoc]
    rw [this]
    simp

/-- `DecUnconLen` reads the length that `EncUnconLen` wrote (R152, R153). -/
theorem decUnconLen_encUnconLen {n : Nat} (hn : n < fragLimit) {rbuf w rest : Bits}
    (hr : rbuf = encUnconLen n w ++ rest) :
    decUnconLen rbuf w.length = .ok (n, (encUnconLen n w).length) := by
  refine decUnconLen_at (rest := rest) ?_ hr
  unfold lengthOctets
  split
  · next h => exact .inl ⟨h, rfl⟩
  · exact .inr ⟨hn, rfl⟩

/-! ### The flag checks -/

@[simp] theorem check_ok_iff (c : Bool) (k : ErrKind) (u : Unit) : check c k = .ok u ↔ c = true := by
  cases c <;> simp [check]

theorem checkLower_ok_iff (lb : Option Int) (v : Int) (u : Unit) :
    checkLower lb v = .ok u ↔ ∀ l, lb = some l → l ≤ v := by
  cases lb <;> simp [checkLower]

theorem checkUpper_ok_iff (ub : Option Int) (v : Int) (u : Unit) :
    checkUpper ub v = .ok u ↔ ∀ b, ub = some b → v ≤ b := by
  cases ub <;> simp [checkUpper]

theorem checkNotFragmented_ok_iff (n : Nat) (u : Unit) :
    checkNotFragmented n = .ok u ↔ n < fragLimit := by
  simp [checkNotFragmented]

theorem checkDeterminant_ok_iff (lb ub : Option Int) (n : Nat) (u : Unit) :
    checkDeterminant lb ub n = .ok u ↔ (lengthRegime lb ub = none → n < fragLimit) := by
  unfold checkDeterminant
  split
  · next h => simp [h]
  · next h => simp [h, checkNotFragmented_ok_iff]

/-- Two checks in a row hold when both do. -/
theorem checks_ok_iff {a : Except ErrKind Unit} {b : Unit → Except ErrKind Unit} (u : Unit) :
    (a >>= b) = .ok u ↔ a = .ok () ∧ b () = .ok u := by
  cases a <;> simp [bind, Except.bind]

/-- The length regime by its bounds (R151). -/
theorem lengthRegime_some_iff (lb ub : Option Int) (q : Int × Int) :
    lengthRegime lb ub = some q ↔ ∃ u, ub = some u ∧ u < lenCwnLimit ∧ q = (lb.getD 0, u) := by
  cases ub with
  | none => simp [lengthRegime]
  | some u =>
    simp only [lengthRegime, Option.some.injEq, exists_eq_left']
    split
    · next h => simp [h, eq_comm]
    · next h => simp [h]

/-- `DecLen` reads the length that `EncLen` wrote when the length satisfies its bounds (R154,
R155). -/
theorem decLen_encLen (p : Params) {lb ub : Option Int} {n : Nat} (hl : ∀ l, lb = some l → l ≤ n)
    (hu : ∀ b, ub = some b → (n : Int) ≤ b) (hf : lengthRegime lb ub = none → n < fragLimit)
    {rbuf w rest : Bits} (hr : rbuf = encLen p lb ub n w ++ rest) :
    decLen p lb ub rbuf w.length = .ok ((n : Int), (encLen p lb ub n w).length) := by
  have hraw : decLenRaw p lb ub rbuf w.length = .ok ((n : Int), (encLen p lb ub n w).length) := by
    unfold decLenRaw
    unfold encLen at hr ⊢
    cases hreg : lengthRegime lb ub with
    | none =>
      simp only [hreg] at hr ⊢
      rw [decUnconLen_encUnconLen (hf hreg) hr]
      rfl
    | some q =>
      obtain ⟨u, rfl, -, rfl⟩ := (lengthRegime_some_iff lb ub q).1 hreg
      simp only [hreg] at hr ⊢
      refine decCwnValue_encCwn p ?_ (hu u rfl) hr
      cases lb with
      | none => simp
      | some l => exact hl l rfl
  unfold decLen
  rw [hraw]
  simp only [bind, Except.bind]
  rw [(checkLower_ok_iff lb n ()).2 hl, (checkUpper_ok_iff ub n ()).2 hu]

/-- `DecMarker` reads the marker that `EncMarker` wrote (R109). -/
theorem decMarker_encMarker {x : Bool} {rbuf w rest : Bits} (hr : rbuf = encMarker x w ++ rest) :
    decMarker x rbuf w.length = .ok (encMarker x w).length := by
  cases x with
  | false => rfl
  | true =>
    simp only [decMarker, encMarker, appendBits, if_true] at hr ⊢
    rw [readBit_at (front := w) (b := false) (rest := rest) (by simp [hr]) rfl]
    simp [bind, Except.bind]

end Sys2Proof.Laws
end

