-- ==== Sys2Proof/Laws/PerInstr.lean ====
section
/-! SUPPORT. Per-instruction laws about commands as syntax. `OpcodeField`: the encoder's word carries
the command's own opcode in bits 15 to 8 and zero in the reserved bits (spec/30_encoding.md R61, R63). -/

namespace Sys2Proof.Laws

/-- The fields the encoder's word fixes whatever the flags are. -/
theorem wordOf_fields (b : BitVec 8) (f : Flags) :
    opcField (wordOf b f) = b ∧ rsvField (wordOf b f) = 0 ∧ flagsField (wordOf b f) = f := by
  obtain ⟨n, e, x, u, l⟩ := f
  refine ⟨?_, ?_, ?_⟩
  · apply BitVec.eq_of_getLsbD_eq
    intro i hi
    have : i = 0 ∨ i = 1 ∨ i = 2 ∨ i = 3 ∨ i = 4 ∨ i = 5 ∨ i = 6 ∨ i = 7 := by omega
    rcases this with h | h | h | h | h | h | h | h <;> subst h <;> simp [opcField, wordOf]
  · apply BitVec.eq_of_getLsbD_eq
    intro i hi
    have : i = 0 ∨ i = 1 ∨ i = 2 := by omega
    rcases this with h | h | h <;> subst h <;> simp [rsvField, wordOf]
  · simp [flagsField, wordOf]

namespace OpcodeField

/-- The opcode field is the command's opcode and the reserved field is zero. -/
def Statement (i : Instr) : Prop :=
  opcField (encode i).cw = i.opc.code ∧ rsvField (encode i).cw = 0

theorem of_wordOf (i : Instr) : Statement i :=
  ⟨(wordOf_fields _ _).1, (wordOf_fields _ _).2.1⟩

theorem newEnc : Statement (.newEnc) := of_wordOf _

theorem newDec (bytes : List Octet) : Statement (.newDec bytes) := of_wordOf _

theorem finish : Statement (.finish) := of_wordOf _

theorem release : Statement (.release) := of_wordOf _

theorem appendBits (bits : Bits) : Statement (.appendBits bits) := of_wordOf _

theorem alignE : Statement (.alignE) := of_wordOf _

theorem readBit : Statement (.readBit) := of_wordOf _

theorem readBits (n : Nat) : Statement (.readBits n) := of_wordOf _

theorem alignD : Statement (.alignD) := of_wordOf _

theorem encBool (b : Bool) : Statement (.encBool b) := of_wordOf _

theorem decBool : Statement (.decBool) := of_wordOf _

theorem encInt (e x : Bool) (lb ub : Option Int) (v : Int) : Statement (.encInt e x lb ub v) := of_wordOf _

theorem decInt (x : Bool) (lb ub : Option Int) : Statement (.decInt x lb ub) := of_wordOf _

theorem encEnum (e x : Bool) (lb ub v : Int) : Statement (.encEnum e x lb ub v) := of_wordOf _

theorem decEnum (x : Bool) (lb ub : Int) : Statement (.decEnum x lb ub) := of_wordOf _

theorem encLen (n : Bool) (lb ub : Option Int) (v : Int) : Statement (.encLen n lb ub v) := of_wordOf _

theorem decLen (n : Bool) (lb ub : Option Int) : Statement (.decLen n lb ub) := of_wordOf _

theorem encBitStr (e x : Bool) (lb ub : Option Int) (bits : Bits) : Statement (.encBitStr e x lb ub bits) := of_wordOf _

theorem decBitStr (x : Bool) (lb ub : Option Int) : Statement (.decBitStr x lb ub) := of_wordOf _

theorem encOctStr (e x : Bool) (lb ub : Option Int) (octets : List Octet) : Statement (.encOctStr e x lb ub octets) := of_wordOf _

theorem decOctStr (x : Bool) (lb ub : Option Int) : Statement (.decOctStr x lb ub) := of_wordOf _

theorem encVisStr (e x : Bool) (lb ub : Option Int) (octets : List Octet) : Statement (.encVisStr e x lb ub octets) := of_wordOf _

theorem decVisStr (x : Bool) (lb ub : Option Int) : Statement (.decVisStr x lb ub) := of_wordOf _

theorem encPrtStr (e x : Bool) (lb ub : Option Int) (octets : List Octet) : Statement (.encPrtStr e x lb ub octets) := of_wordOf _

theorem decPrtStr (x : Bool) (lb ub : Option Int) : Statement (.decPrtStr x lb ub) := of_wordOf _

theorem encUtf8Str (e x : Bool) (lb ub : Option Int) (octets : List Octet) : Statement (.encUtf8Str e x lb ub octets) := of_wordOf _

theorem decUtf8Str (x : Bool) (lb ub : Option Int) : Statement (.decUtf8Str x lb ub) := of_wordOf _

theorem encChoice (e x : Bool) (lb ub v : Int) : Statement (.encChoice e x lb ub v) := of_wordOf _

theorem decChoice (x : Bool) (lb ub : Int) : Statement (.decChoice x lb ub) := of_wordOf _

theorem encSeqHdr (e x : Bool) (bits : Bits) : Statement (.encSeqHdr e x bits) := of_wordOf _

theorem decSeqHdr (x : Bool) (n : Nat) : Statement (.decSeqHdr x n) := of_wordOf _

end OpcodeField

end Sys2Proof.Laws
end

