-- ==== Sys2Proof/Laws/Step.lean ====
section
/-! SUPPORT. What a step can do, from the Host's next command, and runs of many steps. -/

namespace Sys2Proof.Laws

open Sys2Proof.Machine

/-- The state a command executes in: the Host's next command is taken and counted. -/
def taken (s : State) (rest : List Command) : State :=
  { s with pending := rest, issued := s.issued + 1 }

theorem step_nil {s : State} (h : s.pending = []) : step s = .fault .endOfRun := by
  simp [step, fetch, h]

theorem step_illegal {s : State} {c : Command} {rest : List Command} {g : IllegalWord}
    (h : s.pending = c :: rest) (hd : decode c = .error g) :
    step s = .next ((taken s rest).refuse .illegalCommand) := by
  simp [step, fetch, h, hd, taken]

theorem step_command {s : State} {c : Command} {rest : List Command} {i : Instr}
    (h : s.pending = c :: rest) (hd : decode c = .ok i) : step s = exec i (taken s rest) := by
  simp [step, fetch, h, hd, taken]

/-- Everything a step that answers a next state has done. -/
theorem step_cases {s t : State} (h : step s = .next t) :
    ∃ c rest, s.pending = c :: rest ∧
      ((∃ g, decode c = .error g ∧ t = (taken s rest).refuse .illegalCommand) ∨
        ∃ i, decode c = .ok i ∧ exec i (taken s rest) = .next t) := by
  cases hp : s.pending with
  | nil => rw [step_nil hp] at h; cases h
  | cons c rest =>
    refine ⟨c, rest, rfl, ?_⟩
    cases hd : decode c with
    | error g => rw [step_illegal hp hd] at h; cases h; exact .inl ⟨g, rfl, rfl⟩
    | ok i => rw [step_command hp hd] at h; exact .inr ⟨i, rfl, h⟩

/-- A step is the effect of some command, or a refusal, on the state with the command taken. -/
theorem effect_of_step {s t : State} (h : step s = .next t) :
    ∃ c rest, s.pending = c :: rest ∧ Effect (taken s rest) t := by
  obtain ⟨c, rest, hp, ⟨g, -, rfl⟩ | ⟨i, -, he⟩⟩ := step_cases h
  · exact ⟨c, rest, hp, .refused .illegalCommand⟩
  · exact ⟨c, rest, hp, effect_of_exec he⟩

/-- With a command waiting, a step always answers a next state. -/
theorem step_next {s : State} (h : s.pending ≠ []) : ∃ t, step s = .next t := by
  cases hp : s.pending with
  | nil => exact absurd hp h
  | cons c rest =>
    cases hd : decode c with
    | error g => exact ⟨_, step_illegal hp hd⟩
    | ok i =>
      obtain ⟨t, ht, -⟩ := exec_effect i (taken s rest)
      exact ⟨t, (step_command hp hd).trans ht⟩

/-! ### Runs -/

theorem run_succ_of_step (M : Host.Core) {n : Nat} {s u : M.State} (h : M.step s = .next u) :
    M.run (n + 1) s = M.run n u := by simp [Host.Core.run, h]

theorem run_succ_cases (M : Host.Core) {n : Nat} {s t : M.State} (h : M.run (n + 1) s = .next t) :
    ∃ u, M.step s = .next u ∧ M.run n u = .next t := by
  cases hs : M.step s with
  | next u => rw [run_succ_of_step M hs] at h; exact ⟨u, rfl, h⟩
  | fault r => simp [Host.Core.run, hs] at h
  | refused r => simp [Host.Core.run, hs] at h

/-- A run continues from the state its first step answers. -/
theorem run_step {n : Nat} {s u : State} (h : step s = .next u) :
    core.run (n + 1) s = core.run n u := run_succ_of_step core h

/-- A run that answers a next state takes a first step that does. -/
theorem run_cases {n : Nat} {s t : State} (h : core.run (n + 1) s = .next t) :
    ∃ u, step s = .next u ∧ core.run n u = .next t := run_succ_cases core h

end Sys2Proof.Laws
end

