-- ==== Sys2Proof/Laws/Wire.lean ====
section
/-! SUPPORT. The shared operations in the terms the statements use (Sys2Proof/Safety.lean): how a command
ends when its checks and reads are known, the marker, the bounds, the unconstrained length and the
content of a string; and the assembler's operand record. -/

namespace Sys2Proof.Laws

open Sys2Proof.Machine

/-! ### How a command ends -/

theorem admission_of_ready {m : Mode} {i : Instr} {s : State} (hr : s.Ready m)
    (hw : i.wellFormed = true) : admission m i.wellFormed s = none :=
  (admission_none_iff ..).2 ⟨hr.2, hr.1, hw⟩

/-- An encode command whose checks pass. -/
theorem encode_succeeds {i : Instr} {s : State} {checks : Except ErrKind Unit} {write : Bits → Bits}
    (hr : s.Ready .enc) (hw : i.wellFormed = true)
    (h : exec i s = encodeCommand i.wellFormed checks write s) (hc : checks = .ok ()) :
    exec i s = .next (s.afterEncode (write s.wbuf)) := by
  rw [h, encodeCommand_ok (admission_of_ready hr hw) hc]; rfl

/-- An encode command with a check that fails. -/
theorem encode_fails {i : Instr} {s : State} {checks : Except ErrKind Unit} {write : Bits → Bits}
    {k : ErrKind} (hr : s.Ready .enc) (hw : i.wellFormed = true)
    (h : exec i s = encodeCommand i.wellFormed checks write s) (hc : checks = .error k) :
    EncodeFails i k s := by
  subst hc; exact ⟨_, by rw [h, encodeCommand_error (admission_of_ready hr hw)]; rfl⟩

/-- A decode command whose reads answer. -/
theorem decode_succeeds {i : Instr} {s : State} {run : Bits → Nat → Except ErrKind (Value × Nat)}
    {x : Value} {c : Nat} (hr : s.Ready .dec) (hw : i.wellFormed = true)
    (h : exec i s = decodeCommand i.wellFormed (.ok ()) run s)
    (hrun : run s.rbuf s.cur = .ok (x, c)) : exec i s = .next (s.afterDecode x c) := by
  rw [h, decodeCommand_ok (admission_of_ready hr hw) rfl hrun]; rfl

/-- A decode command whose reads fail. -/
theorem decode_fails {i : Instr} {s : State} {run : Bits → Nat → Except ErrKind (Value × Nat)}
    {k : ErrKind} (hr : s.Ready .dec) (hw : i.wellFormed = true) (hc : s.cur ≤ s.rbuf.length)
    (h : exec i s = decodeCommand i.wellFormed (.ok ()) run s)
    (hrun : run s.rbuf s.cur = .error k) : DecodeFails i k s :=
  ⟨s.scatterCursor.cur, _, le_scatterCursor_cur s, scatterCursor_cur_le hc, by
    rw [h, decodeCommand_error (admission_of_ready hr hw) rfl hrun]; rfl⟩

/-! ### Reads, padding and the marker -/

theorem readBits_le {rbuf : Bits} {cur n : Nat} (h : cur + n ≤ rbuf.length) :
    readBits rbuf cur n = .ok ((rbuf.drop cur).take n, cur + n) := by simp [readBits, h]

theorem readBits_short {rbuf : Bits} {cur n : Nat} (h : rbuf.length < cur + n) :
    readBits rbuf cur n = .error .exhausted := readBits_error_iff.2 ⟨h, rfl⟩

theorem readBit_of_getElem? {rbuf : Bits} {cur : Nat} {b : Bool} (h : rbuf[cur]? = some b) :
    readBits rbuf cur 1 = .ok ([b], cur + 1) := by
  obtain ⟨hl, hb⟩ := List.getElem?_eq_some_iff.1 h
  rw [readBits_ok_iff]
  refine ⟨hl, ?_, rfl⟩
  rw [List.drop_eq_getElem_cons hl, hb]; rfl

theorem alignEnc_eq (w : Bits) : alignEnc w = w ++ padBits w.length := rfl

theorem encUnconLen_eq (n : Nat) (w : Bits) :
    encUnconLen n w = w ++ padBits w.length ++ shortestLength n := rfl

theorem encMarker_eq (x : Bool) (w : Bits) : encMarker x w = w ++ marker x := by
  cases x <;> simp [encMarker, marker, appendBits]

theorem decMarker_clear {x : Bool} {s : State} (h : MarkerClear x s) :
    decMarker x s.rbuf s.cur = .ok (s.cur + (marker x).length) := by
  cases x
  · rfl
  · simp only [decMarker, readBit_of_getElem? (h rfl)]; rfl

theorem decMarker_set {rbuf : Bits} {cur : Nat} (h : rbuf[cur]? = some true) :
    decMarker true rbuf cur = .error .unimplemented := by
  simp only [decMarker, readBit_of_getElem? h]; rfl

/-- A marker the buffer no longer holds (R109, R223). -/
theorem decMarker_missing {rbuf : Bits} {cur : Nat} (h : rbuf.length ≤ cur) :
    decMarker true rbuf cur = .error .exhausted := by
  simp only [decMarker, readBits_short (show rbuf.length < cur + 1 by omega)]; rfl

theorem readUint_eq (rbuf : Bits) (cur n : Nat) : readUint rbuf cur n = fieldAt rbuf cur n := by
  unfold readUint readBits fieldAt; split <;> rfl

theorem readUintAligned_eq (rbuf : Bits) (cur n : Nat) :
    readUintAligned rbuf cur n = alignedFieldAt rbuf cur n := by
  unfold readUintAligned alignDec alignedFieldAt
  split
  · simp only [bind, Except.bind]; rw [readUint_eq]; rfl
  · next h =>
    simp only [bind, Except.bind, fieldAt]
    rw [if_neg]
    unfold pad at h
    omega

/-! ### The bounds and the limit -/

theorem checkLower_eq (lb : Option Int) (v : Int) :
    checkLower lb v = if ∀ l, lb = some l → l ≤ v then .ok () else .error .boundsViolation := by
  cases lb <;> simp [checkLower, check]

theorem checkUpper_eq (ub : Option Int) (v : Int) :
    checkUpper ub v = if ∀ u, ub = some u → v ≤ u then .ok () else .error .boundsViolation := by
  cases ub <;> simp [checkUpper, check]

/-- Both bounds in a row, before anything that follows (R222). -/
theorem checkBounds_eq {α : Type} (lb ub : Option Int) (v : Int) (f : Except ErrKind α) :
    (do checkLower lb v; checkUpper ub v; f) =
      if InBounds lb ub v then f else .error .boundsViolation := by
  rw [checkLower_eq, checkUpper_eq]
  by_cases h1 : ∀ l, lb = some l → l ≤ v <;> by_cases h2 : ∀ u, ub = some u → v ≤ u
  · simp only [if_pos h1, if_pos h2, if_pos (show InBounds lb ub v from ⟨h1, h2⟩)]; rfl
  · simp only [if_pos h1, if_neg h2, if_neg (show ¬ InBounds lb ub v from fun h => h2 h.2)]; rfl
  · simp only [if_neg h1, if_neg (show ¬ InBounds lb ub v from fun h => h1 h.1)]; rfl
  · simp only [if_neg h1, if_neg (show ¬ InBounds lb ub v from fun h => h1 h.1)]; rfl

theorem lengthRegime_none_iff (lb ub : Option Int) :
    lengthRegime lb ub = none ↔ ∀ u, ub = some u → 65536 ≤ u := by
  cases ub with
  | none => simp [lengthRegime]
  | some u => simp [lengthRegime, lenCwnLimit]

theorem twosOctets_le_iff_fits {k : Nat} (hk : 1 ≤ k) (v : Int) :
    twosOctets v ≤ k ↔ fitsTwos k v = true := by
  rw [twosOctets_le_iff]; simp [fitsTwos, hk]

theorem nonnegOctets_le_iff_fits {k : Nat} (hk : 1 ≤ k) {v : Int} (hv : 0 ≤ v) :
    nonnegOctets v.toNat ≤ k ↔ fitsUnsigned k v = true := by
  rw [nonnegOctets_le_iff]
  simp only [fitsUnsigned, hk, decide_eq_true_eq, true_and]
  rw [← Int.toNat_of_nonneg hv]
  norm_cast

/-! ### The unconstrained length, and a string's content -/

/-- `DecUnconLen` where either form of a length stands after the padding (R153). -/
theorem decUnconLen_form {rbuf front hdr rest : Bits} {n cur : Nat} (hh : LengthForm n hdr)
    (hr : rbuf = front ++ hdr ++ rest) (hf : front.length = cur + (8 - cur % 8) % 8) :
    decUnconLen rbuf cur = .ok (n, front.length + hdr.length) := by
  unfold decUnconLen
  have ha : alignDec rbuf cur = .ok front.length := by
    rw [alignDec_ok_iff]; subst hr; unfold pad; simp; omega
  rw [ha]
  simp only [bind, Except.bind]
  rcases hh with ⟨hn, rfl⟩ | ⟨hn, rfl⟩
  · rw [readBit_at (front := front) (b := false) (rest := uintBits n 7 ++ rest) (by simp [hr]) rfl]
    simp only [if_true]
    have := readUint_at (rbuf := rbuf) (w := front ++ [false]) (rest := rest) (n := n) (k := 7)
      (by omega) (by simp [hr])
    simp only [List.length_append, List.length_singleton] at this
    rw [this]; simp
  · rw [readBit_at (front := front) (b := true) (rest := false :: uintBits n 14 ++ rest)
      (by simp [hr]) rfl]
    simp only [List.cons.injEq, Bool.true_eq_false, false_and, if_false]
    rw [readBit_at (front := front ++ [true]) (b := false) (rest := uintBits n 14 ++ rest)
      (by simp [hr]) (by simp)]
    simp only [if_true]
    have := readUint_at (rbuf := rbuf) (w := front ++ [true, false]) (rest := rest) (n := n)
      (k := 14) (by omega) (by simp [hr])
    simp only [List.length_append, List.length_cons, List.length_nil, Nat.add_assoc] at this
    simp only [Nat.add_assoc]
    rw [this]; simp

/-- `DecUnconLen` where `11` stands after the padding (R153). -/
theorem decUnconLen_fragmented {rbuf front rest : Bits} {cur : Nat}
    (hr : rbuf = front ++ [true, true] ++ rest) (hf : front.length = cur + (8 - cur % 8) % 8) :
    decUnconLen rbuf cur = .error .unimplemented := by
  unfold decUnconLen
  have ha : alignDec rbuf cur = .ok front.length := by
    rw [alignDec_ok_iff]; subst hr; unfold pad; simp; omega
  rw [ha]
  simp only [bind, Except.bind]
  rw [readBit_at (front := front) (b := true) (rest := true :: rest) (by simp [hr]) rfl]
  simp only [List.cons.injEq, Bool.true_eq_false, false_and, if_false]
  rw [readBit_at (front := front ++ [true]) (b := true) (rest := rest) (by simp [hr]) (by simp)]
  simp

/-- `DecUnconLen` where the buffer ends inside the length (R153, R223). -/
theorem decUnconLen_cutShort {rbuf : Bits} {cur : Nat} (h : LengthCutShort rbuf cur) :
    decUnconLen rbuf cur = .error .exhausted := by
  unfold decUnconLen
  by_cases ha : cur + (8 - cur % 8) % 8 ≤ rbuf.length
  · rw [show alignDec rbuf cur = .ok (cur + (8 - cur % 8) % 8) from alignDec_ok_iff.2 ⟨ha, rfl⟩]
    simp only [bind, Except.bind]
    rcases h with h | ⟨hb, h⟩ | ⟨hb, hn, h⟩
    · rw [readBits_short (by omega)]
    · simp only [readBit_of_getElem? hb, if_true, readUint_eq, fieldAt]
      rw [if_neg (by omega)]
    · simp only [readBit_of_getElem? hb, List.cons.injEq, Bool.true_eq_false, false_and, if_false]
      rcases hs : rbuf[cur + (8 - cur % 8) % 8 + 1]? with _ | b
      · rw [readBits_short (Nat.lt_succ_of_le (List.getElem?_eq_none_iff.1 hs))]
      · obtain rfl : b = false := by cases b <;> simp_all
        simp only [readBit_of_getElem? hs, if_true, readUint_eq, fieldAt]
        rw [if_neg (by omega)]
  · rw [show alignDec rbuf cur = .error .exhausted from if_neg ha]; rfl

/-- The content of a string that the buffer holds whole (R181, R185, R189). -/
theorem decContent_ok {threshold width len c : Nat} {rbuf : Bits}
    (h : (if len > threshold then c + (8 - c % 8) % 8 else c) + width * len ≤ rbuf.length) :
    decContent threshold width len rbuf c =
      .ok ((rbuf.drop (if len > threshold then c + (8 - c % 8) % 8 else c)).take (width * len),
        (if len > threshold then c + (8 - c % 8) % 8 else c) + width * len) := by
  unfold decContent alignContent
  by_cases hh : len > threshold
  · simp only [if_pos hh] at h ⊢
    rw [show alignDec rbuf c = .ok (c + (8 - c % 8) % 8) from
      alignDec_ok_iff.2 ⟨show c + (8 - c % 8) % 8 ≤ _ by omega, rfl⟩]
    exact readBits_le h
  · simp only [if_neg hh] at h ⊢
    exact readBits_le h

/-- The content of a string that the buffer does not hold whole (R223). -/
theorem decContent_short {threshold width len c : Nat} {rbuf : Bits}
    (h : rbuf.length < (if len > threshold then c + (8 - c % 8) % 8 else c) + width * len) :
    decContent threshold width len rbuf c = .error .exhausted := by
  unfold decContent alignContent
  by_cases hh : len > threshold
  · simp only [if_pos hh] at h ⊢
    by_cases h2 : c + (8 - c % 8) % 8 ≤ rbuf.length
    · rw [show alignDec rbuf c = .ok (c + (8 - c % 8) % 8) from alignDec_ok_iff.2 ⟨h2, rfl⟩]
      exact readBits_short h
    · unfold alignDec; rw [if_neg (by unfold pad; exact h2)]; rfl
  · simp only [if_neg hh] at h ⊢
    exact readBits_short h

/-! ### The assembler's operand record -/

/-- Writing an operand puts it in its field (R69). -/
theorem standsIn_put (op : Operands) (a : AsmOperand) : a.StandsIn (a.put op) := by
  cases a <;> rfl

/-- Writing an operand of another field leaves a field as it was (R69). -/
theorem standsIn_put_iff {a b : AsmOperand} (op : Operands) (h : a.sameField b = false) :
    a.StandsIn (b.put op) ↔ a.StandsIn op := by
  cases a <;> cases b <;> first | exact Iff.rfl | cases h

end Sys2Proof.Laws
end

