-- ==== Sys2Proof/Tests/Slice0.lean ====
section
/-! SUPPORT. The model's own tests: ill-formed commands, one decoded word per command, at most two steps
per command, and a witness for the hypotheses of each statement. Expected results come from the spec:
the opcode patterns of spec/30_encoding.md and the vectors of spec/95_test_vectors.md, which each
test names. -/

namespace Sys2Proof.Tests

open Sys2Proof Sys2Proof.Machine

/-! ### Well-formedness (R67): each check refuses a term -/

theorem test_wellFormed_encLen_value : (Instr.encLen false none none (-1)).wellFormed = false := by
  decide

theorem test_wellFormed_length_bound :
    ∀ i ∈ [Instr.encLen false (some (-1)) none 0, .decLen false (some (-1)) none,
      .encBitStr false false (some (-1)) none [], .decBitStr false (some (-1)) none,
      .encOctStr false false (some (-1)) none [], .decOctStr false (some (-1)) none,
      .encVisStr false false (some (-1)) none [], .decVisStr false (some (-1)) none,
      .encPrtStr false false (some (-1)) none [], .decPrtStr false (some (-1)) none,
      .encUtf8Str false false (some (-1)) none [], .decUtf8Str false (some (-1)) none],
      i.wellFormed = false := by decide

/-- A negative bound is legal on a number, and a negative upper bound on a length (R67, Z11). -/
theorem test_wellFormed_negative_bounds :
    (Instr.encInt false false (some (-1)) (some 0) (-1)).wellFormed = true ∧
    (Instr.encLen false (some 0) (some (-1)) 0).wellFormed = true := by decide

/-! ### Decoding: one word per command, written from its pattern in opcode_table.json -/

/-- The operand record of the decode tests: a different value in every field. -/
def ops : Operands :=
  { lb := 2, ub := 9, v := 5, b := true, bits := [true, false], octets := [0xAB], n := 7
    bytes := [0x6C, 0x03] }

/-- The decoder's answer to a word with the record `ops`. -/
def dec? (w : Word) : Except IllegalWord Instr := decode { cw := w, op := ops }

theorem test_decode_NEW_ENC : dec? 0b0000000100000000#16 = .ok .newEnc := by rfl
theorem test_decode_NEW_DEC : dec? 0b0000001000000000#16 = .ok (.newDec [0x6C, 0x03]) := by rfl
theorem test_decode_FINISH : dec? 0b0000001100000000#16 = .ok .finish := by rfl
theorem test_decode_RELEASE : dec? 0b0000010000000000#16 = .ok .release := by rfl
theorem test_decode_APPEND_BITS :
    dec? 0b0000100000000000#16 = .ok (.appendBits [true, false]) := by rfl
theorem test_decode_ALIGN_E : dec? 0b0000100100000000#16 = .ok .alignE := by rfl
theorem test_decode_READ_BIT : dec? 0b0000101000000000#16 = .ok .readBit := by rfl
theorem test_decode_READ_BITS : dec? 0b0000101100000000#16 = .ok (.readBits 7) := by rfl
theorem test_decode_ALIGN_D : dec? 0b0000110000000000#16 = .ok .alignD := by rfl
theorem test_decode_ENC_BOOL : dec? 0b0001000000000000#16 = .ok (.encBool true) := by rfl
theorem test_decode_DEC_BOOL : dec? 0b0001000100000000#16 = .ok .decBool := by rfl
/-- E and L set. -/
theorem test_decode_ENC_INT :
    dec? 0b0001001000001001#16 = .ok (.encInt true false (some 2) none 5) := by rfl
/-- X and U set. -/
theorem test_decode_DEC_INT :
    dec? 0b0001001100000110#16 = .ok (.decInt true none (some 9)) := by rfl
theorem test_decode_ENC_ENUM :
    dec? 0b0001010000000111#16 = .ok (.encEnum false true 2 9 5) := by rfl
theorem test_decode_DEC_ENUM : dec? 0b0001010100000011#16 = .ok (.decEnum false 2 9) := by rfl
/-- N and U set. -/
theorem test_decode_ENC_LEN :
    dec? 0b0001011000010010#16 = .ok (.encLen true none (some 9) 5) := by rfl
theorem test_decode_DEC_LEN :
    dec? 0b0001011100000001#16 = .ok (.decLen false (some 2) none) := by rfl
theorem test_decode_ENC_BITSTR :
    dec? 0b0001100000001010#16 = .ok (.encBitStr true false none (some 9) [true, false]) := by rfl
theorem test_decode_DEC_BITSTR :
    dec? 0b0001100100000101#16 = .ok (.decBitStr true (some 2) none) := by rfl
theorem test_decode_ENC_OCTSTR :
    dec? 0b0001101000000110#16 = .ok (.encOctStr false true none (some 9) [0xAB]) := by rfl
theorem test_decode_DEC_OCTSTR :
    dec? 0b0001101100000011#16 = .ok (.decOctStr false (some 2) (some 9)) := by rfl
theorem test_decode_ENC_VISSTR :
    dec? 0b0001110000000101#16 = .ok (.encVisStr false true (some 2) none [0xAB]) := by rfl
theorem test_decode_DEC_VISSTR :
    dec? 0b0001110100000000#16 = .ok (.decVisStr false none none) := by rfl
theorem test_decode_ENC_PRTSTR :
    dec? 0b0001111000001000#16 = .ok (.encPrtStr true false none none [0xAB]) := by rfl
theorem test_decode_DEC_PRTSTR :
    dec? 0b0001111100000110#16 = .ok (.decPrtStr true none (some 9)) := by rfl
theorem test_decode_ENC_UTF8STR :
    dec? 0b0010000000000011#16 = .ok (.encUtf8Str false false (some 2) (some 9) [0xAB]) := by rfl
theorem test_decode_DEC_UTF8STR :
    dec? 0b0010000100000001#16 = .ok (.decUtf8Str false (some 2) none) := by rfl
theorem test_decode_ENC_CHOICE :
    dec? 0b0010001000001011#16 = .ok (.encChoice true false 2 9 5) := by rfl
theorem test_decode_DEC_CHOICE : dec? 0b0010001100000111#16 = .ok (.decChoice true 2 9) := by rfl
theorem test_decode_ENC_SEQHDR :
    dec? 0b0010010000001100#16 = .ok (.encSeqHdr true true [true, false]) := by rfl
theorem test_decode_DEC_SEQHDR : dec? 0b0010010100000100#16 = .ok (.decSeqHdr true 7) := by rfl

/-- Z4 to Z8: illegal words, each on its ground. -/
theorem test_decode_illegal :
    dec? 0x0500 = .error .reservedOpcode ∧ dec? 0x1020 = .error .reservedBits ∧
    dec? 0x1401 = .error .illegalFlags ∧ dec? 0x1308 = .error .illegalFlags ∧
    dec? 0x1011 = .error .illegalFlags := ⟨rfl, rfl, rfl, rfl, rfl⟩

/-- The examples of R69. -/
theorem test_assemble :
    (assemble "ENC_INT" false false false [.lb 0, .ub 7, .v 5]).map Command.cw = some 0x1203 ∧
    (assemble "ENC_INT" false false true [.lb 0, .ub 7, .v 5]).map Command.cw = some 0x1207 ∧
    (assemble "ENC_LEN" true false false [.v 3]).map Command.cw = some 0x1610 ∧
    (assemble "ENC_SEQHDR" false false true [.bits [true, false]]).map Command.cw = some 0x2404 ∧
    assemble "NOP" false false false [] = none := by decide

/-- The operand record of R69's first example. -/
theorem test_assemble_operands :
    (assemble "ENC_INT" false false false [.lb 0, .ub 7, .v 5]).map Command.op =
      some { lb := 0, ub := 7, v := 5 } := by decide

/-! ### One step per test -/

/-- ENC mode with these bits written. -/
def encAt (w : Bits) : State := { State.reset with mode := .enc, wbuf := w }

/-- DEC mode with this byte source and cursor. -/
def decAt (bytes : List Octet) (cur : Nat) : State :=
  { State.reset with mode := .dec, rbuf := octetsToBits bytes, cur := cur }

/-- The state a command answers. -/
def after (i : Instr) (s : State) : State :=
  match exec i s with
  | .next t => t
  | .fault _ => s
  | .refused _ => s

/-- The outcome a command returns. -/
def outcome (i : Instr) (s : State) : Option CmdOutcome := (after i s).outcomes.getLast?

/-- The octets FINISH would give after a command. -/
def out (i : Instr) (s : State) : List Octet := finishOctets (after i s).wbuf

/-- The outcome of a decode command, with the cursor after it. -/
def read (i : Instr) (s : State) : Option CmdOutcome × Nat := (outcome i s, (after i s).cur)

/-- The other settings of the OPEN parameters. -/
def withParams (a : Bool) (f : LargeForm) (s : State) : State := { s with params := ⟨a, f⟩ }

/-- K1. -/
theorem test_newEnc : statusWord (after .newEnc State.reset) = 0x1 := by decide
/-- K18: ERR is cleared, FAULT_LOG and REFUSED are kept. -/
theorem test_newEnc_afterError :
    let t := after .newEnc { encAt [true] with
      err := some .boundsViolation, faultLog := [(.boundsViolation, 2)], refused := true }
    t.err = none ∧ t.wbuf = [] ∧ t.faultLog = [(.boundsViolation, 2)] ∧ t.refused = true := by decide
/-- K9. -/
theorem test_newDec :
    let t := after (.newDec [0x6C, 0x03]) State.reset
    statusWord t = 0x2 ∧ statusLen t = 16 ∧ statusPos t = 0 ∧
      t.rbuf.take 8 = [false, true, true, false, true, true, false, false] := by decide
/-- K6 and K8. -/
theorem test_finish :
    outcome .finish (encAt [true, false, true]) = some (.ok (.octets [0xA0])) ∧
    outcome .finish (encAt (List.replicate 9 true)) = some (.ok (.octets [0xFF, 0x80])) ∧
    (after .finish (encAt [true])).mode = .idle := by decide
/-- K7: an empty buffer gives no octets. Z3: FINISH in DEC is refused. -/
theorem test_finish_edges :
    outcome .finish (encAt []) = some (.ok (.octets [])) ∧
    outcome .finish (decAt [0x80] 0) = some (.refused .modeMismatch) := by decide
/-- K17. -/
theorem test_release :
    statusWord (after .release (decAt [0x80] 3)) = 0x0 ∧ (after .release (decAt [0x80] 3)).cur = 0 := by
  decide
/-- K2. -/
theorem test_appendBits :
    (after (.appendBits [false, true, true, false]) (encAt [true])).wbuf =
      [true, false, true, true, false] := by decide
/-- K4 and K5. -/
theorem test_alignE :
    (after .alignE (encAt [true, false, true])).wbuf =
      [true, false, true, false, false, false, false, false] ∧
    (after .alignE (encAt [])).wbuf = [] := by decide
/-- K10 and K16. -/
theorem test_readBit :
    read .readBit (decAt [0x80] 0) = (some (.ok (.bool true)), 1) ∧
    outcome .readBit (decAt [] 0) = some (.err .exhausted) := by decide
/-- K11 and K12. -/
theorem test_readBits :
    read (.readBits 4) (decAt [0xA5] 2) = (some (.ok (.bits [true, false, false, true])), 6) ∧
    read (.readBits 0) (decAt [0xA5] 0) = (some (.ok (.bits [])), 0) := by decide
/-- K13. -/
theorem test_readBits_exhausted :
    (after (.readBits 9) (decAt [0x00] 0)).err = some .exhausted ∧
    statusWord (after (.readBits 9) (decAt [0x00] 0)) = 0xE := by decide
/-- K14 and K15: the padding bits are not looked at. -/
theorem test_alignD :
    read .alignD (decAt [0xFF] 1) = (some (.ok .unit), 8) ∧
    read .alignD (decAt [0xFF] 8) = (some (.ok .unit), 8) := by decide
/-- Q1 and Q2. -/
theorem test_encBool :
    (after (.encBool true) (encAt [])).wbuf = [true] ∧
    (after (.encBool false) (encAt [true])).wbuf = [true, false] := by decide
/-- Z1 and Z12. -/
theorem test_encBool_refused :
    outcome (.encBool true) State.reset = some (.refused .modeMismatch) ∧
    statusWord (after (.encBool true) State.reset) = 0x10 ∧
    statusWord (after (.encBool true) { encAt [] with err := some .boundsViolation }) = 0x15 := by
  decide
/-- Q3, Q4 and Q5. -/
theorem test_decBool :
    read .decBool (decAt [0x80] 0) = (some (.ok (.bool true)), 1) ∧
    read .decBool (decAt [0x80] 1) = (some (.ok (.bool false)), 2) ∧
    outcome .decBool (decAt [0x80] 8) = some (.err .exhausted) := by decide
/-- I1, I9, I11, I13, I9', I13' and I15'. -/
theorem test_encInt_constrained :
    out (.encInt false false (some 0) (some 7) 5) (encAt []) = [0xA0] ∧
    out (.encInt false false (some 0) (some 255) 3) (encAt [true, false, true]) = [0xA0, 0x03] ∧
    out (.encInt false false (some 0) (some 256) 256) (encAt []) = [0x01, 0x00] ∧
    out (.encInt false false (some 0) (some 65536) 256) (encAt []) = [0x40, 0x01, 0x00] ∧
    out (.encInt false false (some 0) (some 255) 3)
      (withParams false .x691LengthPrefixed (encAt [true, false, true])) = [0xA0, 0x60] ∧
    out (.encInt false false (some 0) (some 65536) 256)
      (withParams true .fixedRangeOctets (encAt [])) = [0x00, 0x01, 0x00] ∧
    out (.encInt false false (some 0) (some 4294967295) 1)
      (withParams true .fixedRangeOctets (encAt [])) = [0x00, 0x00, 0x00, 0x01] := by decide
/-- I23, I24, I29, I31, and the errors I18, I19 and I20. -/
theorem test_encInt_octets :
    out (.encInt false false (some 0) none 256) (encAt []) = [0x02, 0x01, 0x00] ∧
    out (.encInt false false (some (-5)) none (-5)) (encAt []) = [0x01, 0x00] ∧
    out (.encInt false false none none 128) (encAt []) = [0x02, 0x00, 0x80] ∧
    out (.encInt false false none none (-129)) (encAt []) = [0x02, 0xFF, 0x7F] ∧
    outcome (.encInt false false (some (-1)) (some 0) 1) (encAt []) = some (.err .boundsViolation) ∧
    outcome (.encInt true true (some 0) (some 7) 9) (encAt []) = some (.err .unimplemented) ∧
    outcome (.encInt false false (some 3) (some 2) 3) (encAt []) = some (.err .boundsViolation) := by
  decide
/-- J1, J2, J6, J8, J11 and J12. -/
theorem test_decInt :
    read (.decInt false (some 0) (some 7)) (decAt [0xA0] 0) = (some (.ok (.int 5)), 3) ∧
    read (.decInt true (some 0) (some 7)) (decAt [0x50] 0) = (some (.ok (.int 5)), 4) ∧
    read (.decInt false (some 0) (some 255)) (decAt [0xA0, 0x03] 3) = (some (.ok (.int 3)), 16) ∧
    read (.decInt false (some 0) (some 4294967295)) (decAt [0xC0, 0xFF, 0xFF, 0xFF, 0xFF] 0) =
      (some (.ok (.int 4294967295)), 40) ∧
    read (.decInt false none none) (decAt [0x02, 0x00, 0x05] 0) = (some (.ok (.int 5)), 24) ∧
    read (.decInt false none none) (decAt [0x02, 0xFF, 0x7F] 0) = (some (.ok (.int (-129))), 24) := by
  decide
/-- J3, J4, J9, J13, J14, J15 and J16. -/
theorem test_decInt_errors :
    outcome (.decInt true (some 0) (some 7)) (decAt [0x80] 0) = some (.err .unimplemented) ∧
    outcome (.decInt false (some 0) (some 4)) (decAt [0xE0] 0) = some (.err .boundsViolation) ∧
    outcome (.decInt false (some 0) (some 65536)) (decAt [0xC0, 0, 0, 0] 0) =
      some (.err .boundsViolation) ∧
    outcome (.decInt false none none) (decAt [0x00] 0) = some (.err .boundsViolation) ∧
    outcome (.decInt false none (some 10)) (decAt [0x01, 0x0B] 0) = some (.err .boundsViolation) ∧
    outcome (.decInt false none none) (decAt [0x02, 0x01] 0) = some (.err .exhausted) ∧
    outcome (.decInt false none none) (decAt [0xC0] 0) = some (.err .unimplemented) := by decide
/-- Q6, Q7 and Q8. -/
theorem test_encEnum :
    (after (.encEnum false false 0 3 2) (encAt [])).wbuf = [true, false] ∧
    (after (.encEnum false true 0 3 2) (encAt [])).wbuf = [false, true, false] ∧
    (after (.encEnum false false 0 0 0) (encAt [])).wbuf = [] := by decide
/-- Q9 and Q10. -/
theorem test_encEnum_errors :
    outcome (.encEnum false false 0 3 4) (encAt []) = some (.err .boundsViolation) ∧
    outcome (.encEnum true true 0 3 4) (encAt []) = some (.err .unimplemented) := by decide
/-- Q11, Q12, Q13 and Q14. -/
theorem test_decEnum :
    read (.decEnum false 0 3) (decAt [0x80] 0) = (some (.ok (.int 2)), 2) ∧
    outcome (.decEnum false 0 2) (decAt [0xC0] 0) = some (.err .boundsViolation) ∧
    read (.decEnum false 0 2) (decAt [0x60] 0) = (some (.ok (.int 1)), 2) ∧
    outcome (.decEnum true 0 3) (decAt [0x80] 0) = some (.err .unimplemented) := by decide
/-- N1, N5, N7, N10, N11, N12 and N15. -/
theorem test_encLen :
    out (.encLen false (some 0) (some 15) 3) (encAt []) = [0x30] ∧
    out (.encLen false none none 128) (encAt []) = [0x80, 0x80] ∧
    out (.encLen false none none 16383) (encAt []) = [0xBF, 0xFF] ∧
    out (.encLen false (some 1) (some 65535) 5) (encAt []) = [0x00, 0x04] ∧
    out (.encLen false none (some 20000) 17000) (encAt []) = [0x42, 0x68] ∧
    out (.encLen false (some 3) (some 3) 3) (encAt []) = [] ∧
    out (.encLen false none none 5) (encAt [true]) = [0x80, 0x05] := by decide
/-- N8, N16, N18, N19, Z9 and Z11. -/
theorem test_encLen_errors :
    outcome (.encLen false none none 16384) (encAt []) = some (.err .unimplemented) ∧
    outcome (.encLen true none none 3) (encAt []) = some (.err .unimplemented) ∧
    outcome (.encLen false none (some 1) 2) (encAt []) = some (.err .boundsViolation) ∧
    outcome (.encLen false (some 16000) none 16384) (encAt []) = some (.err .unimplemented) ∧
    outcome (.encLen false none none (-1)) (encAt []) = some (.refused .badOperand) ∧
    outcome (.encLen false none (some (-1)) 0) (encAt []) = some (.err .boundsViolation) := by decide
/-- M1, M2, M3, M7 and M10. -/
theorem test_decLen :
    read (.decLen false (some 0) (some 15)) (decAt [0x30] 0) = (some (.ok (.int 3)), 4) ∧
    read (.decLen false none none) (decAt [0x80, 0xC8] 0) = (some (.ok (.int 200)), 16) ∧
    read (.decLen false none none) (decAt [0x80, 0x05] 0) = (some (.ok (.int 5)), 16) ∧
    read (.decLen false none (some 20000)) (decAt [0x42, 0x68] 0) = (some (.ok (.int 17000)), 16) ∧
    read (.decLen false (some 3) (some 3)) (decAt [] 0) = (some (.ok (.int 3)), 0) := by decide
/-- M4, M5, M6, M8 and M9. -/
theorem test_decLen_errors :
    outcome (.decLen false none none) (decAt [0xC0] 0) = some (.err .unimplemented) ∧
    outcome (.decLen false none none) (decAt [0x80] 0) = some (.err .exhausted) ∧
    outcome (.decLen false (some 6) none) (decAt [0x05] 0) = some (.err .boundsViolation) ∧
    outcome (.decLen false none none) (decAt [0xFF] 1) = some (.err .exhausted) ∧
    read (.decLen true none none) (decAt [0x05] 0) = (some (.err .unimplemented), 0) := by decide
/-- B1, B2, B3, B4 and B6. -/
theorem test_encBitStr :
    out (.encBitStr false false none none [true, false, true]) (encAt []) = [0x03, 0xA0] ∧
    out (.encBitStr false false (some 32) (some 32) (octetsToBits [0xDE, 0xAD, 0xBE, 0xEF]))
      (encAt [true]) = [0x80, 0xDE, 0xAD, 0xBE, 0xEF] ∧
    out (.encBitStr false false (some 0) (some 16) (List.replicate 16 true)) (encAt []) =
      [0x87, 0xFF, 0xF8] ∧
    out (.encBitStr false false (some 0) (some 32) (List.replicate 17 true)) (encAt []) =
      [0x44, 0xFF, 0xFF, 0x80] ∧
    out (.encBitStr false true (some 0) (some 7) [true]) (encAt []) = [0x18] := by decide
/-- B7, B8 and B11. -/
theorem test_encBitStr_errors :
    outcome (.encBitStr false false (some 2) none [true]) (encAt []) = some (.err .boundsViolation) ∧
    outcome (.encBitStr false false none (some 1) [true, true]) (encAt []) =
      some (.err .boundsViolation) ∧
    outcome (.encBitStr true false none none [true]) (encAt []) = some (.err .unimplemented) := by
  decide
/-- B12, B13 and B14. -/
theorem test_decBitStr :
    read (.decBitStr false none none) (decAt [0x03, 0xA0] 0) =
      (some (.ok (.bits [true, false, true])), 11) ∧
    read (.decBitStr false (some 0) (some 16)) (decAt [0x87, 0xFF, 0xF8] 0) =
      (some (.ok (.bits (List.replicate 16 true))), 21) ∧
    read (.decBitStr false (some 0) (some 32)) (decAt [0x44, 0xFF, 0xFF, 0x80] 0) =
      (some (.ok (.bits (List.replicate 17 true))), 25) := by decide
/-- B15 and B17. -/
theorem test_decBitStr_errors :
    outcome (.decBitStr false (some 4) none) (decAt [0x03, 0xA0] 0) = some (.err .boundsViolation) ∧
    outcome (.decBitStr false none none) (decAt [0x09, 0xA0] 0) = some (.err .exhausted) := by decide
/-- O1, O2, O3 and O4. -/
theorem test_encOctStr :
    out (.encOctStr false false none none [0xAB, 0xCD, 0xEF]) (encAt []) = [0x03, 0xAB, 0xCD, 0xEF] ∧
    out (.encOctStr false false (some 2) (some 2) [0x12, 0x34]) (encAt [true]) = [0x89, 0x1A, 0x00] ∧
    out (.encOctStr false false (some 0) (some 7) [0x01, 0x02, 0x03]) (encAt []) =
      [0x60, 0x01, 0x02, 0x03] ∧
    out (.encOctStr false false (some 0) (some 7) [0x01, 0x02]) (encAt []) = [0x40, 0x20, 0x40] := by
  decide
/-- O7, O8 and Z10. -/
theorem test_encOctStr_errors :
    outcome (.encOctStr false false (some 2) none [0x00]) (encAt []) = some (.err .boundsViolation) ∧
    outcome (.encOctStr false false none (some 1) [0x00, 0x00]) (encAt []) =
      some (.err .boundsViolation) ∧
    outcome (.encOctStr false false (some (-1)) none [0x00]) (encAt []) =
      some (.refused .badOperand) := by decide
/-- O9, O10 and O12. -/
theorem test_decOctStr :
    read (.decOctStr false (some 0) (some 7)) (decAt [0x60, 0x01, 0x02, 0x03] 0) =
      (some (.ok (.octets [0x01, 0x02, 0x03])), 32) ∧
    read (.decOctStr false (some 2) (some 2)) (decAt [0x89, 0x1A, 0x00] 1) =
      (some (.ok (.octets [0x12, 0x34])), 17) ∧
    outcome (.decOctStr false none none) (decAt [] 0) = some (.err .exhausted) := by decide
/-- S1 and S4. -/
theorem test_encVisStr :
    out (.encVisStr false false none none [0x48, 0x69]) (encAt []) = [0x02, 0x48, 0x69] ∧
    out (.encVisStr false true (some 0) (some 4) [0x41, 0x42, 0x43]) (encAt []) =
      [0x30, 0x41, 0x42, 0x43] := by decide
/-- S8. -/
theorem test_decVisStr :
    read (.decVisStr false none none) (decAt [0x02, 0x48, 0x69] 0) =
      (some (.ok (.octets [0x48, 0x69])), 24) := by decide
/-- S2. -/
theorem test_encPrtStr :
    out (.encPrtStr false false (some 1) (some 8) [0x61, 0x62, 0x63]) (encAt []) =
      [0x40, 0x61, 0x62, 0x63] := by decide
/-- S9. -/
theorem test_decPrtStr :
    read (.decPrtStr false (some 1) (some 8)) (decAt [0x40, 0x61, 0x62, 0x63] 0) =
      (some (.ok (.octets [0x61, 0x62, 0x63])), 32) := by decide
/-- S3 and S7. -/
theorem test_encUtf8Str :
    out (.encUtf8Str false false none none [0xC3, 0xA9]) (encAt []) = [0x02, 0xC3, 0xA9] ∧
    outcome (.encUtf8Str true false none none [0x41]) (encAt []) = some (.err .unimplemented) := by
  decide
/-- S10 and S11: ill-formed UTF-8 is returned. -/
theorem test_decUtf8Str :
    outcome (.decUtf8Str false none none) (decAt [0x02, 0xC3, 0xA9] 0) =
      some (.ok (.octets [0xC3, 0xA9])) ∧
    outcome (.decUtf8Str false none none) (decAt [0x02, 0xFF, 0xFE] 0) =
      some (.ok (.octets [0xFF, 0xFE])) := by decide
/-- H1 and H2. -/
theorem test_encChoice :
    (after (.encChoice false true 0 2 1) (encAt [])).wbuf = [false, false, true] ∧
    (after (.encChoice false false 0 0 0) (encAt [])).wbuf = [] := by decide
/-- H3 and H4. -/
theorem test_encChoice_errors :
    outcome (.encChoice false false 0 2 3) (encAt []) = some (.err .boundsViolation) ∧
    outcome (.encChoice true true 0 2 3) (encAt []) = some (.err .unimplemented) := by decide
/-- H5 and H6. -/
theorem test_decChoice :
    read (.decChoice true 0 2) (decAt [0x20] 0) = (some (.ok (.int 1)), 3) ∧
    outcome (.decChoice false 0 2) (decAt [0xC0] 0) = some (.err .boundsViolation) := by decide
/-- H7, H8 and H9. -/
theorem test_encSeqHdr :
    (after (.encSeqHdr false true [true, false]) (encAt [])).wbuf = [false, true, false] ∧
    (after (.encSeqHdr false false []) (encAt [])).wbuf = [] ∧
    outcome (.encSeqHdr true true [true]) (encAt []) = some (.err .unimplemented) := by decide
/-- H10, H11, H12 and H13. -/
theorem test_decSeqHdr :
    read (.decSeqHdr true 2) (decAt [0x40] 0) = (some (.ok (.bits [true, false])), 3) ∧
    outcome (.decSeqHdr true 2) (decAt [0x80] 0) = some (.err .unimplemented) ∧
    read (.decSeqHdr false 0) (decAt [0x40] 0) = (some (.ok (.bits [])), 0) ∧
    outcome (.decSeqHdr false 9) (decAt [0x40] 0) = some (.err .exhausted) := by decide

/-- The state `step` answers. -/
def stepped (s : State) : State :=
  match step s with
  | .next t => t
  | .fault _ => s
  | .refused _ => s

/-- Z13 and Z14: the word is checked first, then the error, then the mode; every command counts. -/
theorem test_step_order :
    (stepped { encAt [] with err := some .boundsViolation, pending := [⟨0x0500, {}⟩] }).outcomes =
      [.refused .illegalCommand] ∧
    (stepped { decAt [] 0 with err := some .exhausted, pending := [⟨0x1000, {}⟩] }).outcomes =
      [.refused .afterError] ∧
    (stepped { encAt [] with pending := [⟨0x0500, {}⟩] }).issued = 1 := by decide

/-- Program 3, command 3: the error is logged with its issue index, and WBUF is unchanged. -/
theorem test_step_faultLog :
    let t := stepped { encAt [true, false, true] with
      issued := 2, pending := [⟨0x1201, { lb := 1, v := 0 }⟩] }
    t.faultLog = [(.boundsViolation, 3)] ∧ t.wbuf = [true, false, true] ∧
      t.err = some .boundsViolation := by decide

/-! ### Witnesses: the hypotheses of each statement, met by a concrete state and operands -/

theorem witness_DecodedWordReencodes :
    decode ⟨0x1203, ops⟩ = .ok (.encInt false false (some 2) (some 9) 5) := by rfl

theorem witness_LegalWordsAreTableRows :
    (⟨"ENC_INT", 0x1200#16, 0xFFF0#16⟩ : OpcodeRow) ∈ opcodeRows ∧
    (0x120F#16 &&& 0xFFF0#16 = 0x1200#16) ∧
    decode ⟨0x120F, ops⟩ = .ok (.encInt true true (some 2) (some 9) 5) :=
  ⟨by simp [opcodeRows], by decide, by rfl⟩

theorem witness_AssembledWordFields :
    ([.lb 0, .ub 7, .lb 2] : List AsmOperand) = [.lb 0] ++ .ub 7 :: [.lb 2] ∧
    (∀ b ∈ ([.lb 2] : List AsmOperand), (AsmOperand.ub 7).sameField b = false) ∧
    (∀ b ∈ ([.lb 0, .ub 7, .lb 2] : List AsmOperand), (AsmOperand.v 0).sameField b = false) := by
  decide

theorem witness_IgnoredOperandsNeverMatter :
    AgreeWhereRead 0x1203 ops { ops with bits := [], octets := [], n := 0, bytes := [], b := false } ∧
    AgreeWhereRead 0x1000 ops { b := true } := by
  unfold AgreeWhereRead; decide

theorem witness_StepRunsDecodedCommand :
    ({ encAt [true] with pending := [⟨0x0900, {}⟩] } : State).pending = ⟨0x0900, {}⟩ :: [] ∧
    decode ⟨0x0900, {}⟩ = .ok .alignE := ⟨rfl, rfl⟩

theorem witness_StepRefusesIllegalWord :
    ({ encAt [] with pending := [⟨0x0500, {}⟩] } : State).pending = ⟨0x0500, {}⟩ :: [] ∧
    opcOf (opcField 0x0500) = none ∧ rsvField 0x1020 ≠ 0 ∧
    opcOf (opcField 0x1401) = some .encEnum ∧
    Opc.encEnum.flagRow.admits (flagsField 0x1401) = false := by decide

theorem witness_StepStopsOnlyAtEndOfRun :
    State.reset.pending = [] ∧ ({ State.reset with pending := [⟨0x0500, {}⟩] } : State).pending ≠ [] := by
  decide

/-- A unit with an encode buffer, after one refusal. -/
def midRun : State :=
  { encAt [true] with
    issued := 2, refused := true, outcomes := [.ok .unit, .refused .modeMismatch]
    pending := [⟨0x0900, {}⟩] }

theorem witness_StepKeepsInvariant : midRun.Inv ∧ step midRun = .next (stepped midRun) := by
  refine ⟨⟨⟨?_, ?_, rfl, le_rfl⟩, ⟨rfl, rfl, rfl, rfl, ?_, ?_⟩⟩, rfl⟩
  · intro h; exact absurd rfl h
  · intro _; exact ⟨rfl, rfl⟩
  · intro k h; cases h
  · intro h; exact absurd rfl h

theorem witness_UnitsAreIndependent :
    (0 : Nat) ≠ 1 ∧ stepUnit 1 [State.reset, midRun] = some [State.reset, stepped midRun] :=
  ⟨by decide, rfl⟩

theorem witness_StepTakesOneCommand : step midRun = .next (stepped midRun) := rfl

theorem witness_RunRecordsNeverCleared :
    step midRun = .next (stepped midRun) ∧ midRun.refused = true := ⟨rfl, rfl⟩

/-- A failed tree with two more commands. -/
def failedTree : State :=
  { encAt [true] with err := some .boundsViolation, pending := [encode .finish, encode .alignE] }

theorem witness_FailedTreeNeverOutputs :
    failedTree.err ≠ none ∧
    (∀ c ∈ failedTree.pending.take 2, ∀ i, decode c = .ok i → requiredMode i ≠ none) ∧
    ∃ t, core.run 2 failedTree = .next t := by
  refine ⟨by decide, ?_, _, rfl⟩
  intro c hc i hi
  have hc' : c = encode .finish ∨ c = encode .alignE := by simpa [failedTree] using hc
  rcases hc' with rfl | rfl <;> cases hi <;> decide

theorem witness_SuccessfulRunIffAllOk :
    ∃ t, core.run 2 { State.resetWith .recommended with
      pending := [encode .newEnc, encode .finish] } = .next t := ⟨_, rfl⟩

theorem witness_ValueTreeRoundTrip :
    [Instr.encBool true].mapM mirror = some [(.decBool, .bool true)] ∧
    ∃ s, core.run 3 { State.resetWith .recommended with
        pending := ([.newEnc] ++ [.encBool true] ++ [.finish] : List Instr).map encode } = .next s ∧
      s.successful ∧ s.res = some (.octets [0x80]) := by
  refine ⟨rfl, _, rfl, ⟨rfl, rfl⟩, ?_⟩
  decide

theorem witness_RefusalChecksInOrder :
    requiredMode .finish = some .enc ∧ failedTree.err ≠ none ∧
    (decAt [] 0).err = none ∧ (decAt [] 0).mode ≠ .enc ∧
    requiredMode (.encLen false none none (-1)) = some .enc ∧ (encAt []).Ready .enc ∧
    (Instr.encLen false none none (-1)).wellFormed = false := by decide

theorem witness_AdmittedCommandIsNotRefused :
    (∀ m, requiredMode .alignE = some m → (encAt [true]).Ready m) ∧
    Instr.alignE.wellFormed = true ∧
    exec .alignE (encAt [true]) = .next (after .alignE (encAt [true])) := by
  refine ⟨?_, rfl, rfl⟩
  intro m h; cases h; decide

theorem witness_EncodeFaultPriority :
    (encAt []).Ready .enc ∧
    (∀ i ∈ [Instr.encLen true (some 5) none 0, .encInt true false (some 5) none 0],
      requiredMode i = some .enc ∧ i ≠ .finish ∧ i.wellFormed = true ∧
        encodeFault i = some .unimplemented) ∧
    requiredMode (.encLen false none none 16384) = some .enc ∧
    encodeFault (.encLen false none none 16384) = some .unimplemented ∧
    encodeFault (.encLen false none none 16383) = none ∧
    encodeFault (.encEnum false false 0 3 4) = some .boundsViolation ∧
    encodeFault (.encEnum false false 0 3 3) = none := by decide

theorem witness_DecodeErrorState :
    requiredMode .readBit = some .dec ∧ (decAt [] 0).cur ≤ (decAt [] 0).rbuf.length ∧
    exec .readBit (decAt [] 0) = .next (after .readBit (decAt [] 0)) ∧
    (after .readBit (decAt [] 0)).outcomes = (decAt [] 0).outcomes ++ [.err .exhausted] :=
  ⟨rfl, le_rfl, rfl, rfl⟩

theorem witness_ModeWrittenOnlyByLifecycle :
    Instr.alignE ≠ .newEnc ∧ (∀ b, Instr.alignE ≠ .newDec b) ∧ Instr.alignE ≠ .finish ∧
    Instr.alignE ≠ .release ∧ exec .alignE (encAt [true]) = .next (after .alignE (encAt [true])) :=
  ⟨by decide, by simp, by decide, by decide, rfl⟩

theorem witness_EncodeBufferOnlyExtended :
    requiredMode .alignE ≠ none ∧ Instr.alignE ≠ .finish ∧
    exec .alignE (encAt [true]) = .next (after .alignE (encAt [true])) ∧
    (after .alignE (encAt [true])).wbuf ≠ (encAt [true]).wbuf :=
  ⟨by decide, by decide, rfl, by decide⟩

theorem witness_DecodeBufferFixedCursorForward :
    requiredMode .readBit ≠ none ∧
    exec .readBit (decAt [0x80] 7) = .next (after .readBit (decAt [0x80] 7)) ∧
    (decAt [0x80] 7).cur ≤ (decAt [0x80] 7).rbuf.length ∧ requiredMode .alignE = some .enc :=
  ⟨by decide, rfl, by decide, rfl⟩

theorem witness_ResultPortTyped :
    exec .readBit (decAt [0x80] 0) = .next (after .readBit (decAt [0x80] 0)) ∧
    (after .readBit (decAt [0x80] 0)).outcomes = [] ++ [.ok (.bool true)] := ⟨rfl, by decide⟩

theorem witness_MarkerOneUnimplemented :
    (decAt [0x80] 0).Ready .dec ∧ (decAt [0x80] 0).rbuf[(decAt [0x80] 0).cur]? = some true ∧
    lengthBoundOk (some 0) = true ∧ lengthBoundOk none = true := by decide

theorem witness_NumberFieldsMsbFirst :
    (0 < 3 ∧ 2 < 3 ∧ 7 < 2 ^ 3 ∧ 0 < 2 ^ 0) ∧
    (1 ≤ 8 ∧ -2 ^ (8 - 1) ≤ (-128 : Int) ∧ (-128 : Int) < 2 ^ (8 - 1)) := by decide

theorem witness_SizeFunctionsAreLeast : 1 ≤ 1 ∧ nbits 1 = 0 := by decide

theorem witness_OctetViewMsbFirst :
    exec (.newDec [0x6C, 0x03]) State.reset = .next (after (.newDec [0x6C, 0x03]) State.reset) ∧
    ([0x6C, 0x03] : List Octet)[1]? = some 0x03 ∧ 7 < 8 ∧
    (encAt [true, false, true]).Ready .enc ∧
    exec .finish (encAt [true, false, true]) = .next (after .finish (encAt [true, false, true])) ∧
    (after .finish (encAt [true, false, true])).res = some (.octets [0xA0]) ∧
    ([0xA0] : List Octet)[0]? = some 0xA0 :=
  ⟨rfl, rfl, by decide, by decide, rfl, by decide, rfl⟩

theorem witness_FinishReturnsOctets : (encAt []).Ready .enc ∧ (encAt [true]).Ready .enc := by decide

theorem witness_AppendAlignAndBool : (encAt (List.replicate 7 true)).Ready .enc := by decide

theorem witness_RawReads :
    (decAt [0x81] 7).Ready .dec ∧ (decAt [0x81] 7).rbuf[(decAt [0x81] 7).cur]? = some true ∧
    (decAt [0x81] 7).cur + 1 ≤ (decAt [0x81] 7).rbuf.length ∧
    (decAt [0x81] 8).cur + 0 ≤ (decAt [0x81] 8).rbuf.length := by decide

theorem witness_AlignDecodeCursor :
    ∀ s ∈ [decAt [0xFF] 0, decAt [0xFF] 1, decAt [0xFF] 8],
      s.Ready .dec ∧ s.rbuf.length % 8 = 0 ∧ s.cur ≤ s.rbuf.length := by decide

/-- Every place where an unconstrained length can be cut short: an empty buffer, padding with nothing
after it (M8), a two-octet form without its second octet (M5), and, in buffers that no NEW_DEC gives,
a one-octet form and both parts of a two-octet form cut inside an octet. -/
theorem witness_LengthCutShort :
    ∀ b ∈ [([], 0), (octetsToBits [0xFF], 1), (octetsToBits [0x80], 0), (false :: uintBits 5 6, 0),
      ([true], 0), (true :: false :: uintBits 5 13, 0)], LengthCutShort b.1 b.2 := by decide

/-- Whole forms and the fragmented one are not cut short. -/
theorem witness_not_LengthCutShort :
    ∀ o ∈ [[0x7F], [0xC0], [0x80, 0x05]], ¬ LengthCutShort (octetsToBits o) 0 := by decide

theorem witness_ShortBufferExhausted :
    ((decAt [0x80] 8).Ready .dec ∧ (decAt [0x80] 8).cur = (decAt [0x80] 8).rbuf.length ∧
      (decAt [0x80] 8).rbuf.length < (decAt [0x80] 8).cur + 1 ∧
      (decAt [0x80] 8).rbuf.length < (decAt [0x80] 8).cur + (marker true).length + 0) ∧
    (MarkerClear true (decAt [0x00] 7) ∧
      (decAt [0x00] 7).rbuf.length < (decAt [0x00] 7).cur + (marker true).length + 1) ∧
    let s : State := { decAt [] 0 with rbuf := [true], cur := 1 }
    s.Ready .dec ∧ s.cur ≤ s.rbuf.length ∧ s.rbuf.length < s.cur + (8 - s.cur % 8) % 8 := by decide

theorem witness_ShortBufferExhausted_marker :
    (decAt [] 0).Ready .dec ∧ (decAt [] 0).cur = (decAt [] 0).rbuf.length ∧
    lengthBoundOk (some 0) = true := by decide

theorem witness_EncCwnLayout : (5 : Int) ≤ 5 ∧ (0 : Int) ≤ 65536 ∧ (65536 : Int) ≤ 65536 := by decide

theorem witness_EncodeConstrainedNumbers :
    (encAt [true]).Ready .enc ∧ (0 : Int) ≤ 7 ∧ (7 : Int) ≤ 7 := by decide

theorem witness_EncodeOctetIntegers :
    (encAt [true]).Ready .enc ∧ ((5 : Int) ≤ 5 ∧ nonnegOctets ((5 : Int) - 5).toNat < 16384) ∧
    ((∀ u, some (-129 : Int) = some u → (-129 : Int) ≤ u) ∧ twosOctets (-129) < 16384) := by decide

theorem witness_DecodeConstrainedNumbers :
    (decAt [0x50] 0).Ready .dec ∧ (decAt [0x50] 0).cur ≤ (decAt [0x50] 0).rbuf.length ∧
    MarkerClear true (decAt [0x50] 0) ∧
    decCwn .recommended 0 7 (decAt [0x50] 0).rbuf (0 + (marker true).length) = .ok (5, 4) ∧
    MarkerClear true (decAt [0x70] 0) ∧
    decCwn .recommended 0 4 (decAt [0x70] 0).rbuf (0 + (marker true).length) =
      .error .boundsViolation :=
  ⟨by decide, by decide, by decide, by rfl, by decide, by rfl⟩

theorem witness_DecodeOctetIntegers :
    (decAt [0x00, 0x01, 0x05] 0).Ready .dec ∧ MarkerClear true (decAt [0x00, 0x01, 0x05] 0) ∧
    (decAt [0x00, 0x01, 0x05] 0).rbuf =
      List.replicate 8 false ++ (false :: uintBits 1 7) ++ uintBits 5 8 ++ [] ∧
    (List.replicate 8 false).length = 0 + (marker true).length + (8 - (0 + 1) % 8) % 8 ∧
    LengthForm 1 (false :: uintBits 1 7) ∧ LengthForm 1 (true :: false :: uintBits 1 14) ∧
    1 ≤ 1 ∧ (uintBits 5 8).length = 8 * 1 ∧ (∀ u, some (5 : Int) = some u → sint (uintBits 5 8) ≤ u) := by
  unfold LengthForm; decide

theorem witness_DecodeOctetIntegerErrors :
    (∀ s ∈ [decAt [0x00] 0, decAt [0x02, 0x01] 0, decAt [0xC0] 0, decAt [0x01, 0x0B] 0],
      s.Ready .dec ∧ MarkerClear false s ∧ s.cur ≤ s.rbuf.length ∧
        ([] : Bits).length = s.cur + (marker false).length + (8 - (s.cur + 0) % 8) % 8) ∧
    ((decAt [0x00] 0).rbuf = [] ++ (false :: uintBits 0 7) ++ [] ∧
      LengthForm 0 (false :: uintBits 0 7)) ∧
    ((decAt [0x02, 0x01] 0).rbuf = [] ++ (false :: uintBits 2 7) ++ uintBits 1 8 ∧
      LengthForm 2 (false :: uintBits 2 7) ∧ (uintBits 1 8).length < 8 * 2) ∧
    (decAt [0xC0] 0).rbuf = [] ++ [true, true] ++ List.replicate 6 false ∧
    ((decAt [0x01, 0x0B] 0).rbuf = [] ++ (false :: uintBits 1 7) ++ uintBits 11 8 ∧
      LengthForm 1 (false :: uintBits 1 7) ∧ 8 * 1 ≤ (uintBits 11 8).length ∧
      (10 : Int) < sint ((uintBits 11 8).take (8 * 1))) := by
  unfold LengthForm; decide

theorem witness_DecodeOctetIntegerErrors_cutShort :
    (decAt [] 0).Ready .dec ∧ (decAt [0x00] 7).Ready .dec ∧
    LengthCutShort (decAt [] 0).rbuf ((decAt [] 0).cur + (marker false).length) ∧
    MarkerClear true (decAt [0x00] 7) ∧ (decAt [0x00] 7).cur ≤ (decAt [0x00] 7).rbuf.length ∧
    LengthCutShort (decAt [0x00] 7).rbuf ((decAt [0x00] 7).cur + (marker true).length) := by
  decide

theorem witness_IntegerRoundTrip :
    (encAt [true]).Ready .enc ∧ (decAt [0xD0] 1).Ready .dec ∧
    (decAt [0xD0] 1).params = (encAt [true]).params ∧
    exec (.encInt false false (some 0) (some 7) 5) (encAt [true]) =
      .next ((encAt [true]).afterEncode [true, true, false, true]) ∧
    (decAt [0xD0] 1).rbuf = [true, true, false, true] ++ List.replicate 4 false ∧
    (decAt [0xD0] 1).cur = (encAt [true]).wbuf.length :=
  ⟨by decide, by decide, rfl, rfl, by decide, rfl⟩

theorem witness_EncodeLength :
    (encAt [true]).Ready .enc ∧ lengthBoundOk (some 0) = true ∧
    ((0 : Int) ≤ 65535 ∧ InBounds (some 0) (some 65535) 65535 ∧ (65535 : Int) < 65536) ∧
    ((0 : Int) ≤ 16383 ∧ InBounds (some 0) (some 65536) 16383 ∧
      (∀ u, some (65536 : Int) = some u → 65536 ≤ u) ∧ (16383 : Int) < 16384) := by decide

theorem witness_DecodeLength :
    (decAt [0x30] 0).Ready .dec ∧ lengthBoundOk (some 5) = true ∧
    decCwn .recommended 0 15 (decAt [0x30] 0).rbuf 0 = .ok (3, 4) ∧
    (∀ u, some (65536 : Int) = some u → 65536 ≤ u) ∧
    (decAt [0x80, 0x05] 0).rbuf = [] ++ (true :: false :: uintBits 5 14) ++ [] ∧
    ([] : Bits).length = 0 + (8 - 0 % 8) % 8 ∧
    LengthForm 5 (true :: false :: uintBits 5 14) ∧ InBounds (some 5) (some 65536) 5 :=
  ⟨by decide, by decide, by rfl, by decide, by decide, by decide, by unfold LengthForm; decide,
    by decide⟩

theorem witness_DecodeLengthErrors :
    (decAt [0x05] 0).Ready .dec ∧ (decAt [0x05] 0).cur ≤ (decAt [0x05] 0).rbuf.length ∧
    lengthBoundOk (some 6) = true ∧
    decCwn .recommended 0 15 (decAt [] 0).rbuf 0 = .error .exhausted ∧
    (decAt [0xC0] 0).rbuf = [] ++ [true, true] ++ List.replicate 6 false ∧
    (decAt [0x05] 0).rbuf = [] ++ (false :: uintBits 5 7) ++ [] ∧
    LengthForm 5 (false :: uintBits 5 7) ∧ ¬ InBounds (some 6) none 5 :=
  ⟨by decide, by decide, by decide, by rfl, by decide, by decide, by unfold LengthForm; decide,
    by decide⟩

theorem witness_DecodeLengthErrors_cutShort :
    (decAt [0x80] 0).Ready .dec ∧ (decAt [0x80] 0).cur ≤ (decAt [0x80] 0).rbuf.length ∧
    lengthBoundOk none = true ∧ (∀ u, some (65536 : Int) = some u → 65536 ≤ u) ∧
    LengthCutShort (decAt [0x80] 0).rbuf (decAt [0x80] 0).cur := by
  decide

theorem witness_LengthRoundTrip :
    (encAt [true]).Ready .enc ∧ (decAt [0x80, 0x05] 1).Ready .dec ∧
    (decAt [0x80, 0x05] 1).params = (encAt [true]).params ∧
    exec (.encLen false none none 5) (encAt [true]) =
      .next ((encAt [true]).afterEncode (octetsToBits [0x80, 0x05])) ∧
    (decAt [0x80, 0x05] 1).rbuf = octetsToBits [0x80, 0x05] ++ [] ∧
    (decAt [0x80, 0x05] 1).cur = (encAt [true]).wbuf.length :=
  ⟨by decide, by decide, rfl, rfl, by decide, rfl⟩

theorem witness_EncodeBitString :
    (encAt [true]).Ready .enc ∧ lengthBoundOk (some 17) = true ∧
    InBounds (some 17) (some 17) (List.replicate 17 true).length ∧
    (List.replicate 17 true).length < 16384 := by decide

theorem witness_EncodeOctetString :
    (encAt [true]).Ready .enc ∧ lengthBoundOk (some 3) = true ∧
    InBounds (some 3) (some 3) ([1, 2, 3] : List Octet).length ∧
    ([1, 2, 3] : List Octet).length < 16384 := by decide

theorem witness_EncodeCharacterStrings :
    (encAt [true]).Ready .enc ∧ lengthBoundOk (some 0) = true ∧
    InBounds (some 0) (some 65536) ([] : List Octet).length ∧
    ((∀ u, some (65536 : Int) = some u → 65536 ≤ u) → ([] : List Octet).length < 16384) := by decide

theorem witness_StringDeterminant :
    (some (65535 : Int) = some 65535 ∧ (65535 : Int) < 65536) ∧
    (∀ u, some (65536 : Int) = some u → 65536 ≤ u) := by decide

theorem witness_DecodeStrings :
    (decAt [0x03, 0xA0] 0).Ready .dec ∧ lengthBoundOk none = true ∧
    MarkerClear false (decAt [0x03, 0xA0] 0) ∧
    decLen .recommended none none (decAt [0x03, 0xA0] 0).rbuf (0 + (marker false).length) =
      .ok (((3 : Nat) : Int), 8) ∧
    8 + 3 ≤ (decAt [0x03, 0xA0] 0).rbuf.length ∧
    decLen .recommended none none (decAt [0x02, 0x48, 0x69] 0).rbuf (0 + (marker false).length) =
      .ok (((2 : Nat) : Int), 8) ∧
    octetsToBits [0x48, 0x69] = ((decAt [0x02, 0x48, 0x69] 0).rbuf.drop 8).take (8 * 2) ∧
    8 + 8 * 2 ≤ (decAt [0x02, 0x48, 0x69] 0).rbuf.length :=
  ⟨by decide, by decide, by decide, by rfl, by decide, by rfl, by decide, by decide⟩

theorem witness_DecodeStringErrors :
    (decAt [0x40, 0x00] 0).Ready .dec ∧
    (decAt [0x40, 0x00] 0).cur ≤ (decAt [0x40, 0x00] 0).rbuf.length ∧ lengthBoundOk none = true ∧
    MarkerClear false (decAt [0x40, 0x00] 0) ∧
    decLen .recommended none none (decAt [0xC0] 0).rbuf (0 + (marker false).length) =
      .error .unimplemented ∧
    decLen .recommended none (some 20000) (decAt [0x40, 0x00] 0).rbuf (0 + (marker false).length) =
      .ok (((16384 : Nat) : Int), 16) ∧
    decLen .recommended none none (decAt [0x09, 0xA0] 0).rbuf (0 + (marker false).length) =
      .ok (((9 : Nat) : Int), 8) ∧ (decAt [0x09, 0xA0] 0).rbuf.length < 8 + 9 ∧
    decLen .recommended none none (decAt [0x02, 0x48] 0).rbuf (0 + (marker false).length) =
      .ok (((2 : Nat) : Int), 8) ∧ (decAt [0x02, 0x48] 0).rbuf.length < 8 + 8 * 2 :=
  ⟨by decide, by decide, by decide, by decide, by rfl, by rfl, by rfl, by decide, by rfl, by decide⟩

theorem witness_StringLengthRead :
    lengthBoundOk (some 0) = true ∧ (65535 : Int) < 65536 ∧
    (∀ u, some (65536 : Int) = some u → 65536 ≤ u) ∧
    octetsToBits [0x80, 0x05] = [] ++ (true :: false :: uintBits 5 14) ++ [] ∧
    ([] : Bits).length = 0 + (8 - 0 % 8) % 8 ∧
    LengthForm 5 (true :: false :: uintBits 5 14) ∧
    octetsToBits [0xC0] = [] ++ [true, true] ++ List.replicate 6 false ∧
    LengthCutShort (octetsToBits []) 0 := by
  unfold LengthForm; decide

theorem witness_StringRoundTrip :
    (encAt [true]).Ready .enc ∧
    ((decAt [0xD0] 1).Ready .dec ∧ (decAt [0xD0] 1).params = (encAt [true]).params ∧
      (decAt [0xD0] 1).rbuf = [true, true, false, true] ++ List.replicate 4 false ∧
      (decAt [0xD0] 1).cur = (encAt [true]).wbuf.length ∧
      exec (.encBitStr false false (some 3) (some 3) [true, false, true]) (encAt [true]) =
        .next ((encAt [true]).afterEncode [true, true, false, true])) ∧
    ((decAt [0xD5, 0x80] 1).Ready .dec ∧
      (decAt [0xD5, 0x80] 1).rbuf = (true :: uintBits 0xAB 8) ++ List.replicate 7 false ∧
      exec (.encOctStr false false (some 1) (some 1) [0xAB]) (encAt [true]) =
        .next ((encAt [true]).afterEncode (true :: uintBits 0xAB 8)) ∧
      exec (.encVisStr false false (some 1) (some 1) [0xAB]) (encAt [true]) =
        .next ((encAt [true]).afterEncode (true :: uintBits 0xAB 8)) ∧
      exec (.encPrtStr false false (some 1) (some 1) [0xAB]) (encAt [true]) =
        .next ((encAt [true]).afterEncode (true :: uintBits 0xAB 8)) ∧
      exec (.encUtf8Str false false (some 1) (some 1) [0xAB]) (encAt [true]) =
        .next ((encAt [true]).afterEncode (true :: uintBits 0xAB 8))) :=
  ⟨by decide, ⟨by decide, rfl, by decide, rfl, rfl⟩, by decide, by decide, rfl, rfl, rfl, rfl⟩

theorem witness_SequenceHeader :
    (encAt [true]).Ready .enc ∧ (decAt [0x40] 0).Ready .dec ∧ MarkerClear true (decAt [0x40] 0) ∧
    (decAt [0x40] 0).cur + (marker true).length + 7 ≤ (decAt [0x40] 0).rbuf.length := by decide

end Sys2Proof.Tests
end

/-! PROOF. The statements about spec/00_scope.md: the number formats (R9, R10), the size functions
(R11) and the step (R3). -/

namespace Sys2Proof.Proofs

open Sys2Proof.Machine Sys2Proof.Laws

/-- The bit at index i of a number field has the weight `2^(k-1-i)` (R9). -/
theorem uintBits_getElem? (v : Nat) {k i : Nat} (h : i < k) :
    (uintBits v k)[i]? = some (v.testBit (k - 1 - i)) := by
  induction k generalizing i with
  | zero => exact absurd h (Nat.not_lt_zero i)
  | succ k ih =>
    cases i with
    | zero => simp [uintBits]
    | succ i =>
      have hi : i < k := Nat.lt_of_succ_lt_succ h
      rw [uintBits, List.getElem?_cons_succ, ih hi, show k + 1 - 1 - (i + 1) = k - 1 - i by omega]

/-- The recursion of `uint` is the weighted sum over the field's bits (R9). -/
theorem uint_eq_sum (s : Bits) :
    uint s = ∑ i : Fin s.length, (s[i]).toNat * 2 ^ (s.length - 1 - i.val) := by
  induction s with
  | nil => rfl
  | cons b s ih =>
    have hexp (i : Fin s.length) : s.length - (i.val + 1) = s.length - 1 - i.val := by omega
    simp [uint, ih, Fin.sum_univ_succ, hexp]

/-- The sign bit of `sint` is the bit at index 0 (R10). -/
theorem sint_eq_ite_getElem? (s : Bits) :
    sint s = if s[0]? = some true then (uint s : Int) - 2 ^ s.length else uint s := by
  rw [sint, List.head?_eq_getElem?]

/-- Settles O29: the bit at each index and the weighted sum by induction along the field, the
inverses from the laws of the number formats. -/
theorem numberFieldsMsbFirst : Obligations.NumberFieldsMsbFirst := by
  refine ⟨fun v k => ⟨uintBits_length v k, fun _ hi => uintBits_getElem? v hi⟩, uint_eq_sum,
    fun _ _ hv => uint_uintBits hv, uintBits_uint, fun v k hk hlo hhi => ?_, sint_eq_ite_getElem?⟩
  exact ⟨rfl, sint_twosBits hk hlo hhi⟩

/-- The `↔` law of a size function makes it the least count of its kind (R11). -/
theorem isLeast_of_le_iff {m : Nat} {P : Nat → Prop} (h : ∀ k, m ≤ k ↔ P k) :
    IsLeast {k | P k} m :=
  ⟨(h m).1 le_rfl, fun k hk => (h k).2 hk⟩

/-- Settles O30: each size function is at most k exactly when k is a count R11 admits. -/
theorem sizeFunctionsAreLeast : Obligations.SizeFunctionsAreLeast :=
  ⟨fun r _ => isLeast_of_le_iff (nbits_le_iff r),
    fun v => isLeast_of_le_iff (nonnegOctets_le_iff v),
    fun v => isLeast_of_le_iff (twosOctets_le_iff v)⟩

/-- Settles O7, by the law of a step on a legal command. -/
theorem stepRunsDecodedCommand : Obligations.StepRunsDecodedCommand :=
  fun _ _ _ _ hp hd => step_command hp hd

end Sys2Proof.Proofs

/-! PROOF. The statements about spec/10_state.md: the state at reset (R32), the invariant of a unit
(R23 to R28), the records of a run (R28), what each kind of command may change (R23 to R26), the
status registers (R29) and the independence of units (R31). -/

namespace Sys2Proof.Proofs

open Sys2Proof.Machine Sys2Proof.Laws

/-! ### The records of a run (R26, R28) -/

/-- The records of `t` are those of `s` with one more outcome `o`, returned at the issue index of
`s` (R26, R28). -/
structure Recorded (s t : State) (o : CmdOutcome) : Prop where
  params : t.params = s.params
  pending : t.pending = s.pending
  issued : t.issued = s.issued
  outcomes : t.outcomes = s.outcomes ++ [o]
  res : t.res = o.result
  faultLog : t.faultLog = s.faultLog ++ errorsFrom s.issued [o]
  refused : t.refused = (s.refused || o.isRefusal)

/-- Every effect of a command records exactly one outcome. -/
theorem recorded_of_effect {s t : State} (e : Effect s t) : ∃ o, Recorded s t o := by
  have hlog : s.faultLog = s.faultLog ++ [] := (List.append_nil _).symm
  have hrefused : s.refused = (s.refused || false) := (Bool.or_false _).symm
  cases e with
  | refused r => exact ⟨.refused r, rfl, rfl, rfl, rfl, rfl, hlog, (Bool.or_true _).symm⟩
  | encodeError k => exact ⟨.err k, rfl, rfl, rfl, rfl, rfl, rfl, hrefused⟩
  | decodeError k c => exact ⟨.err k, rfl, rfl, rfl, rfl, rfl, rfl, hrefused⟩
  | encoded w => exact ⟨.ok .unit, rfl, rfl, rfl, rfl, rfl, hlog, hrefused⟩
  | decoded x c => exact ⟨.ok x, rfl, rfl, rfl, rfl, rfl, hlog, hrefused⟩
  | finished => exact ⟨.ok (.octets _), rfl, rfl, rfl, rfl, rfl, hlog, hrefused⟩
  | renewed m b => exact ⟨.ok .unit, rfl, rfl, rfl, rfl, rfl, hlog, hrefused⟩

/-- A step takes the first command and records one outcome at its issue index. -/
theorem recorded_of_step {s t : State} (h : step s = .next t) :
    ∃ o, Recorded (taken s s.pending.tail) t o := by
  obtain ⟨c, rest, hp, e⟩ := effect_of_step h
  rw [hp]
  exact recorded_of_effect e

/-! ### Every step keeps the invariant (R23 to R28) -/

/-- An effect keeps the buffers as the mode it leaves requires (R23 to R25). -/
theorem buffersInv_of_effect {s t : State} (h : s.BuffersInv) (e : Effect s t) : t.BuffersInv := by
  obtain ⟨hwbuf, hrbuf, h8, hcur⟩ := h
  cases e with
  | refused r => exact ⟨hwbuf, hrbuf, h8, hcur⟩
  | encodeError k hm he => exact ⟨hwbuf, hrbuf, h8, hcur⟩
  | decodeError k c hm he hc => exact ⟨hwbuf, fun hne => absurd hm hne, h8, hc.2 hcur⟩
  | encoded w hm he hw => exact ⟨fun hne => absurd hm hne, hrbuf, h8, hcur⟩
  | decoded x c hm he hc => exact ⟨hwbuf, fun hne => absurd hm hne, h8, hc.2 hcur⟩
  | finished hm he => exact ⟨fun _ => rfl, fun _ => hrbuf (by simp [hm]), h8, hcur⟩
  | renewed m b hb8 hb => exact ⟨fun _ => rfl, fun hne => ⟨hb hne, rfl⟩, hb8, Nat.zero_le _⟩

/-- An error that stands after a command stood before it, or was raised by it with a buffer owned;
the mode is kept (R27, R220). -/
theorem error_of_effect {s t : State} {k : ErrKind} (e : Effect s t) (hk : t.err = some k) :
    t.mode = s.mode ∧ (s.err = some k ∨ s.mode ≠ .idle ∧ (k, s.issued) ∈ t.faultLog) := by
  cases e with
  | refused r => exact ⟨rfl, .inl hk⟩
  | encodeError k' hm he => cases hk; exact ⟨rfl, .inr ⟨by simp [hm], by simp⟩⟩
  | decodeError k' c hm he hc => cases hk; exact ⟨rfl, .inr ⟨by simp [hm], by simp⟩⟩
  | encoded w hm he hw => exact ⟨rfl, .inl hk⟩
  | decoded x c hm he hc => exact ⟨rfl, .inl hk⟩
  | finished hm he => exact absurd hk (by simp [he])
  | renewed m b h8 hb => cases hk

/-- The errors of a sequence of outcomes continue at the next issue index (R28). -/
theorem errorsFrom_append (i : Nat) (os ps : List CmdOutcome) :
    errorsFrom i (os ++ ps) = errorsFrom i os ++ errorsFrom (i + os.length) ps := by
  induction os generalizing i with
  | nil => rfl
  | cons o os ih =>
    have hi : i + (o :: os).length = i + 1 + os.length := by simp; omega
    rw [hi]
    cases o with
    | ok x => exact ih (i + 1)
    | err k => exact congrArg ((k, i) :: ·) (ih (i + 1))
    | refused r => exact ih (i + 1)

/-- A command executed with its index counted keeps the records in agreement (R26 to R28). -/
theorem recordsInv_of_effect {s t : State} {rest : List Command} (h : s.RecordsInv)
    (e : Effect (taken s rest) t) : t.RecordsInv := by
  obtain ⟨hcount, hlog, hmark, -, hlogged, hmode⟩ := h
  obtain ⟨o, hr⟩ := recorded_of_effect e
  constructor
  case issued_count => simp [hr.outcomes, hr.issued, taken, hcount]
  case fault_log =>
    calc t.faultLog = s.faultLog ++ errorsFrom (s.issued + 1) [o] := hr.faultLog
      _ = errorsFrom 1 s.outcomes ++ errorsFrom (1 + s.outcomes.length) [o] := by
        rw [hlog, hcount, Nat.add_comm]
      _ = errorsFrom 1 (s.outcomes ++ [o]) := (errorsFrom_append ..).symm
      _ = errorsFrom 1 t.outcomes := by rw [hr.outcomes]; rfl
  case refused_mark => simp [hr.refused, hr.outcomes, taken, hmark]
  case result_port => simp [hr.res, hr.outcomes]
  case error_logged =>
    intro k hk
    obtain ⟨-, hold | ⟨-, hnew⟩⟩ := error_of_effect e hk
    · obtain ⟨i, hi⟩ := hlogged k hold
      exact ⟨i, by rw [hr.faultLog]; exact List.mem_append_left _ hi⟩
    · exact ⟨_, hnew⟩
  case error_mode =>
    intro hne
    obtain ⟨k, hk⟩ := Option.ne_none_iff_exists'.1 hne
    obtain ⟨hm, hold | ⟨howned, -⟩⟩ := error_of_effect e hk
    · rw [hm]; exact hmode (Option.ne_none_iff_exists'.2 ⟨k, hold⟩)
    · rwa [hm]

/-- Settles O12: a step is an effect on the state with the command taken, which keeps each part of
the invariant. -/
theorem stepKeepsInvariant : Obligations.StepKeepsInvariant := by
  intro s t ⟨hbuffers, hrecords⟩ h
  obtain ⟨c, rest, -, e⟩ := effect_of_step h
  have htaken : (taken s rest).BuffersInv :=
    ⟨hbuffers.wbuf_owned, hbuffers.rbuf_owned, hbuffers.rbuf_octets, hbuffers.cur_inside⟩
  exact ⟨buffersInv_of_effect htaken e, recordsInv_of_effect hrecords e⟩

/-- Settles O11: every buffer and record is empty and no error stands. -/
theorem resetMeetsInvariant : Obligations.ResetMeetsInvariant := by
  intro p cs
  refine ⟨⟨fun _ => rfl, fun _ => ⟨rfl, rfl⟩, rfl, le_rfl⟩, ⟨rfl, rfl, rfl, rfl, ?_, ?_⟩⟩
  · intro k hk; cases hk
  · intro hne; exact absurd rfl hne

/-- Settles O10, by the laws of the reset state. -/
theorem resetState : Obligations.ResetState :=
  ⟨resetWith_mode _, resetWith_wbuf _, resetWith_rbuf _, resetWith_cur _, resetWith_res _,
    resetWith_err _, resetWith_faultLog _, resetWith_refused _⟩

/-! ### What a step records (R20, R28, R30) -/

/-- Settles O14, by what a step records. -/
theorem stepTakesOneCommand : Obligations.StepTakesOneCommand := by
  intro s t h
  obtain ⟨o, hr⟩ := recorded_of_step h
  exact ⟨hr.pending, hr.issued, hr.params, o, hr.outcomes⟩

/-- Settles O15, by what a step records for each kind of outcome. -/
theorem runRecordsNeverCleared : Obligations.RunRecordsNeverCleared := by
  refine ⟨resetWith_issued _, fun s t h => ?_⟩
  obtain ⟨o, hr⟩ := recorded_of_step h
  have houtcomes : t.outcomes = s.outcomes ++ [o] := hr.outcomes
  have hrefused : t.refused = (s.refused || o.isRefusal) := hr.refused
  have hlog : t.faultLog = s.faultLog ++ errorsFrom (s.issued + 1) [o] := hr.faultLog
  refine ⟨hr.issued, ?_, ?_⟩
  · cases o <;> simp [hrefused, houtcomes, CmdOutcome.isRefusal]
  · cases o with
    | ok x => exact .inl ⟨by simp [hlog, errorsFrom], by simp [houtcomes]⟩
    | err k => exact .inr ⟨k, houtcomes, hlog⟩
    | refused r => exact .inl ⟨by simp [hlog, errorsFrom], by simp [houtcomes]⟩

/-! ### How an encode or a decode command ends (R225, R227) -/

/-- An encode command that answers was refused, failed a check, or wrote its bits. -/
theorem encodeCommand_cases {legal : Bool} {checks : Except ErrKind Unit} {write : Bits → Bits}
    {s t : State} (h : encodeCommand legal checks write s = .next t) :
    (∃ r, t = s.refuse r) ∨ (∃ k, t = s.raise k) ∨
      t = ({ s with wbuf := write s.wbuf } : State).complete .unit := by
  cases ha : admission .enc legal s with
  | some r => rw [encodeCommand_refused ha] at h; cases h; exact .inl ⟨r, rfl⟩
  | none =>
    cases checks with
    | error k => rw [encodeCommand_error ha] at h; cases h; exact .inr (.inl ⟨k, rfl⟩)
    | ok u => rw [encodeCommand_ok ha rfl] at h; cases h; exact .inr (.inr rfl)

/-- A decode command that answers was refused, failed with the cursor somewhere ahead, or returned
what it read. -/
theorem decodeCommand_cases {legal : Bool} {checks : Except ErrKind Unit}
    {run : Bits → Nat → Except ErrKind (Value × Nat)} {s t : State}
    (h : decodeCommand legal checks run s = .next t) :
    (∃ r, t = s.refuse r) ∨
      (∃ k c, Forward s.rbuf s.cur c ∧ t = ({ s with cur := c } : State).raise k) ∨
      ∃ x c, run s.rbuf s.cur = .ok (x, c) ∧ t = ({ s with cur := c } : State).complete x := by
  cases ha : admission .dec legal s with
  | some r => rw [decodeCommand_refused ha] at h; cases h; exact .inl ⟨r, rfl⟩
  | none =>
    cases checks with
    | error k =>
      rw [decodeCommand_checkError ha] at h; cases h
      exact .inr (.inl ⟨k, s.cur, .refl .., rfl⟩)
    | ok u =>
      cases hrun : run s.rbuf s.cur with
      | error k =>
        rw [decodeCommand_error ha rfl hrun] at h; cases h
        exact .inr (.inl ⟨k, s.scatterCursor.cur, ⟨le_scatterCursor_cur s, scatterCursor_cur_le⟩, rfl⟩)
      | ok q =>
        rw [decodeCommand_ok ha rfl hrun] at h; cases h
        exact .inr (.inr ⟨q.1, q.2, rfl, rfl⟩)

/-! ### The type of a result (R26) -/

/-- Every value a reader returns has the type of the command `i`. -/
def Yields (i : Instr) (r : Except ErrKind (Value × Nat)) : Prop :=
  ∀ x c, r = .ok (x, c) → hasResultType i x = true

theorem Yields.ok {i : Instr} {x : Value} {c : Nat} (h : hasResultType i x = true) :
    Yields i (.ok (x, c)) := by
  intro x' c' hx; cases hx; exact h

/-- What is read before the last part of a reader does not matter to its type. -/
theorem Yields.bind {α : Type} {i : Instr} {r : Except ErrKind α}
    {f : α → Except ErrKind (Value × Nat)} (hf : ∀ a, Yields i (f a)) : Yields i (r >>= f) := by
  intro x c h
  cases r with
  | error k => cases h
  | ok a => exact hf a x c h

/-- A decode command is its reads, and what they return has the type of the command. -/
theorem exec_decode_yields {i : Instr} (s : State) (hm : requiredMode i = some .dec) :
    ∃ legal checks run, exec i s = decodeCommand legal checks run s ∧
      ∀ rbuf cur, Yields i (run rbuf cur) := by
  cases i with
  | readBit => exact ⟨_, _, _, exec_readBit .., fun _ _ => .bind fun _ => .ok rfl⟩
  | readBits n => exact ⟨_, _, _, exec_readBits .., fun _ _ => .bind fun _ => .ok rfl⟩
  | alignD => exact ⟨_, _, _, exec_alignD .., fun _ _ => .bind fun _ => .ok rfl⟩
  | decBool => exact ⟨_, _, _, exec_decBool .., fun _ _ => .bind fun _ => .ok rfl⟩
  | decInt x lb ub =>
    exact ⟨_, _, _, exec_decInt .., fun _ _ => .bind fun _ => .bind fun _ => .ok rfl⟩
  | decEnum x lb ub =>
    exact ⟨_, _, _, exec_decEnum .., fun _ _ => .bind fun _ => .bind fun _ => .ok rfl⟩
  | decChoice x lb ub =>
    exact ⟨_, _, _, exec_decChoice .., fun _ _ => .bind fun _ => .bind fun _ => .ok rfl⟩
  | decLen n lb ub => exact ⟨_, _, _, exec_decLen .., fun _ _ => .bind fun _ => .ok rfl⟩
  | decBitStr x lb ub =>
    exact ⟨_, _, _, exec_decBitStr .., fun _ _ =>
      .bind fun _ => .bind fun _ => .bind fun _ => .ok rfl⟩
  | decOctStr x lb ub =>
    exact ⟨_, _, _, exec_decOctStr .., fun _ _ =>
      .bind fun _ => .bind fun _ => .bind fun _ => .ok rfl⟩
  | decVisStr x lb ub =>
    exact ⟨_, _, _, exec_decVisStr .., fun _ _ => .bind fun _ => .bind fun _ => .ok rfl⟩
  | decPrtStr x lb ub =>
    exact ⟨_, _, _, exec_decPrtStr .., fun _ _ => .bind fun _ => .bind fun _ => .ok rfl⟩
  | decUtf8Str x lb ub =>
    exact ⟨_, _, _, exec_decUtf8Str .., fun _ _ => .bind fun _ => .bind fun _ => .ok rfl⟩
  | decSeqHdr x n =>
    exact ⟨_, _, _, exec_decSeqHdr .., fun _ _ => .bind fun _ => .bind fun _ => .ok rfl⟩
  | _ => cases hm

/-- Encode commands return Unit (R227). -/
theorem hasResultType_unit {i : Instr} (hm : requiredMode i = some .enc) (hi : i ≠ .finish) :
    hasResultType i .unit = true := by
  cases i with
  | finish => exact absurd rfl hi
  | _ => cases hm <;> rfl

/-- The outcome a command adds is determined by the sequence it leaves. -/
theorem added_outcome_inj {os : List CmdOutcome} {o o' : CmdOutcome} (h : os ++ [o] = os ++ [o']) :
    o = o' := List.singleton_injective (List.append_cancel_left h)

/-- A decode command that returns `Ok(x)` has read an x of its type. -/
theorem hasResultType_of_decode {i : Instr} {s t : State} {x : Value}
    (hm : requiredMode i = some .dec) (h : exec i s = .next t)
    (ho : t.outcomes = s.outcomes ++ [.ok x]) : hasResultType i x = true := by
  obtain ⟨legal, checks, run, hexec, hyields⟩ := exec_decode_yields s hm
  obtain ⟨r, rfl⟩ | ⟨k, c, -, rfl⟩ | ⟨y, c, hrun, rfl⟩ := decodeCommand_cases (hexec.symm.trans h)
  · cases added_outcome_inj ho
  · cases added_outcome_inj ho
  · cases added_outcome_inj ho
    exact hyields _ _ _ _ hrun

/-! ### What a command that needs a mode can do (R66, R225, R227) -/

/-- The effects of a command `i` that needs the mode in the index. Where `Effect` speaks of any
command, these tell FINISH from the others and give a result the type of its command (R26). -/
inductive ModedEffect (i : Instr) (s : State) : Mode → State → Prop where
  | refused (m : Mode) (r : Reason) : ModedEffect i s m (s.refuse r)
  | finished (hi : i = .finish) :
      ModedEffect i s .enc (({ s with mode := .idle, wbuf := [] } : State).complete
        (.octets (finishOctets s.wbuf)))
  | encodeError (k : ErrKind) : ModedEffect i s .enc (s.raise k)
  | encoded (w : Bits) (hw : s.wbuf <+: w) (hx : hasResultType i .unit = true) :
      ModedEffect i s .enc (({ s with wbuf := w } : State).complete .unit)
  | decodeError (k : ErrKind) (c : Nat) (hc : Forward s.rbuf s.cur c) :
      ModedEffect i s .dec (({ s with cur := c } : State).raise k)
  | decoded (x : Value) (c : Nat) (hc : Forward s.rbuf s.cur c) (hx : hasResultType i x = true) :
      ModedEffect i s .dec (({ s with cur := c } : State).complete x)

/-- FINISH is refused, or closes the buffer (R112). -/
theorem modedEffect_finish {s t : State} (h : exec .finish s = .next t) :
    ModedEffect .finish s .enc t := by
  change execFinish s = .next t at h
  cases ha : admission .enc true s with
  | some r => rw [execFinish_refused ha] at h; cases h; exact .refused .enc r
  | none => rw [execFinish_ok ha] at h; cases h; exact .finished rfl

/-- What a command that needs a mode does, by its shape. -/
theorem modedEffect_of_exec {i : Instr} {m : Mode} {s t : State} (hm : requiredMode i = some m)
    (h : exec i s = .next t) : ModedEffect i s m t := by
  by_cases hi : i = .finish
  · subst hi; cases hm; exact modedEffect_finish h
  cases exec_shape s hm with
  | finish hfinish => exact absurd hfinish hi
  | encode checks write hshape hw =>
    obtain ⟨r, rfl⟩ | ⟨k, rfl⟩ | rfl := encodeCommand_cases (hshape.symm.trans h)
    · exact .refused .enc r
    · exact .encodeError k
    · exact .encoded _ (hw _) (hasResultType_unit hm hi)
  | decode checks run hshape hr =>
    obtain ⟨r, rfl⟩ | ⟨k, c, hc, rfl⟩ | ⟨x, c, hrun, rfl⟩ :=
      decodeCommand_cases (hshape.symm.trans h)
    · exact .refused .dec r
    · exact .decodeError k c hc
    · exact .decoded x c ((hr _ _).forward _ _ hrun) (hasResultType_of_decode hm h rfl)

/-- Only NEW_ENC, NEW_DEC and RELEASE are accepted in every mode (R66). -/
theorem requiredMode_eq_none {i : Instr} (h : requiredMode i = none) :
    i = .newEnc ∨ (∃ b, i = .newDec b) ∨ i = .release := by
  cases i with
  | newEnc => exact .inl rfl
  | newDec b => exact .inr (.inl ⟨b, rfl⟩)
  | release => exact .inr (.inr rfl)
  | _ => cases h

/-- Settles O23: of the commands that need a mode only FINISH changes it. -/
theorem modeWrittenOnlyByLifecycle : Obligations.ModeWrittenOnlyByLifecycle := by
  intro i s t hnewEnc hnewDec hfinish hrelease h
  cases hm : requiredMode i with
  | none =>
    obtain hi | ⟨b, hi⟩ | hi := requiredMode_eq_none hm
    · exact absurd hi hnewEnc
    · exact absurd hi (hnewDec b)
    · exact absurd hi hrelease
  | some m =>
    cases modedEffect_of_exec hm h with
    | finished hi => exact absurd hi hfinish
    | _ => rfl

/-- Settles O24: only a successful encode command writes WBUF, and it appends. -/
theorem encodeBufferOnlyExtended : Obligations.EncodeBufferOnlyExtended := by
  intro i s t hreq hfinish h
  obtain ⟨m, hm⟩ := Option.ne_none_iff_exists'.1 hreq
  cases modedEffect_of_exec hm h with
  | finished hi => exact absurd hi hfinish
  | encoded w hw hx => exact ⟨hw, fun _ => ⟨hm, rfl⟩⟩
  | _ => exact ⟨List.prefix_rfl, fun hne => absurd rfl hne⟩

/-- Settles O25: only a decode command moves CUR, forward and inside the buffer. -/
theorem decodeBufferFixedCursorForward : Obligations.DecodeBufferFixedCursorForward := by
  intro i s t hreq h
  obtain ⟨m, hm⟩ := Option.ne_none_iff_exists'.1 hreq
  cases modedEffect_of_exec hm h with
  | decodeError k c hc => exact ⟨rfl, hc.1, hc.2, by simp [hm]⟩
  | decoded x c hc hx => exact ⟨rfl, hc.1, hc.2, by simp [hm]⟩
  | _ => exact ⟨rfl, le_rfl, id, fun _ => rfl⟩

/-- A value a command returns has the type its rule gives (R26). -/
theorem hasResultType_of_exec {i : Instr} {s t : State} {x : Value} (h : exec i s = .next t)
    (ho : t.outcomes = s.outcomes ++ [.ok x]) : hasResultType i x = true := by
  cases hm : requiredMode i with
  | none =>
    obtain rfl | ⟨b, rfl⟩ | rfl := requiredMode_eq_none hm
    · cases h; cases added_outcome_inj ho; rfl
    · cases h; cases added_outcome_inj ho; rfl
    · cases h; cases added_outcome_inj ho; rfl
  | some m =>
    cases modedEffect_of_exec hm h with
    | refused _ r => cases added_outcome_inj ho
    | finished hi => subst hi; cases added_outcome_inj ho; rfl
    | encodeError k => cases added_outcome_inj ho
    | encoded w hw hx => cases added_outcome_inj ho; exact hx
    | decodeError k c hc => cases added_outcome_inj ho
    | decoded y c hc hx => cases added_outcome_inj ho; exact hx

/-- Settles O26: the outcome a command records, and the type of the value it holds. -/
theorem resultPortTyped : Obligations.ResultPortTyped := by
  intro i s t h
  obtain ⟨o, hr⟩ := recorded_of_effect (effect_of_exec h)
  refine ⟨o, hr.outcomes, hr.res, fun x hx => ?_⟩
  subst hx
  exact hasResultType_of_exec h hr.outcomes

/-! ### The status registers (R29) -/

/-- The fields of S0 when MODE, ERRKIND and REFUSED are `m`, `e` and `r` (R29). -/
theorem statusFields (m e : BitVec 2) (r : Bool) :
    let w : BitVec 32 :=
      m.setWidth 32 ||| (e.setWidth 32 <<< 2) ||| ((BitVec.ofBool r).setWidth 32 <<< 4)
    w.extractLsb' 0 2 = m ∧ w.extractLsb' 2 2 = e ∧ w.getLsbD 4 = r ∧ w.extractLsb' 5 27 = 0 := by
  revert m e r; decide

/-- The code of a mode fits in two bits. -/
theorem modeCode_eq_setWidth (m : Mode) : m.code = (m.code.setWidth 2).setWidth 32 := by
  cases m <;> rfl

/-- The code of an error fits in two bits. -/
theorem errCode_eq_setWidth (e : Option ErrKind) :
    errCode e = ((errCode e).setWidth 2).setWidth 32 := by
  rcases e with _ | k
  · rfl
  · cases k <;> rfl

/-- Settles O28: the fields of S0 are the two-bit codes and the mark; S1 to S3 are what the model
reads. -/
theorem statusRegisters : Obligations.StatusRegisters := by
  refine ⟨⟨rfl, rfl, rfl⟩, fun s => ⟨statusWord s, rfl, ?_⟩⟩
  have hw := statusFields (s.mode.code.setWidth 2) ((errCode s.err).setWidth 2) s.refused
  rw [← modeCode_eq_setWidth, ← errCode_eq_setWidth] at hw
  obtain ⟨hmode, herr, hrefused, hzero⟩ := hw
  refine ⟨?_, ?_, hrefused, hzero, rfl, rfl, rfl⟩
  · refine (congrArg BitVec.toNat hmode).trans ?_
    cases s.mode <;> rfl
  · refine (congrArg BitVec.toNat herr).trans ?_
    rcases s.err with _ | k
    · rfl
    · cases k <;> rfl

/-! ### Several units (R31) -/

/-- A unit that answers is the one unit replaced in the list. -/
theorem stepUnit_eq_some_iff {k : Nat} {us vs : List State} :
    stepUnit k us = some vs ↔ ∃ s t, us[k]? = some s ∧ step s = .next t ∧ vs = us.set k t := by
  unfold stepUnit
  cases us[k]? with
  | none => simp
  | some s => cases hs : step s <;> simp [hs, eq_comm]

/-- A step of one unit leaves every other unit as it was. -/
theorem stepUnit_getElem?_ne {us vs : List State} {j k : Nat} (hjk : j ≠ k)
    (h : stepUnit k us = some vs) : vs[j]? = us[j]? := by
  obtain ⟨s, t, -, -, rfl⟩ := stepUnit_eq_some_iff.1 h
  exact List.getElem?_set_ne hjk.symm

/-- Two steps of different units that answer in one order answer the same in the other. -/
theorem stepUnit_swap {us vs ws : List State} {j k : Nat} (hjk : j ≠ k)
    (hj : stepUnit j us = some vs) (hk : stepUnit k vs = some ws) :
    ∃ vs', stepUnit k us = some vs' ∧ stepUnit j vs' = some ws := by
  have hother : vs[k]? = us[k]? := stepUnit_getElem?_ne hjk.symm hj
  obtain ⟨s, t, hs, hst, rfl⟩ := stepUnit_eq_some_iff.1 hj
  obtain ⟨s', t', hs', hst', rfl⟩ := stepUnit_eq_some_iff.1 hk
  refine ⟨us.set k t', stepUnit_eq_some_iff.2 ⟨s', t', hother ▸ hs', hst', rfl⟩,
    stepUnit_eq_some_iff.2 ⟨s, t, ?_, hst, List.set_comm _ _ hjk⟩⟩
  rw [List.getElem?_set_ne hjk.symm, hs]

/-- Settles O13: a step replaces one unit of the list by what that unit alone decides. -/
theorem unitsAreIndependent : Obligations.UnitsAreIndependent := by
  refine ⟨fun us vs j k hjk h => stepUnit_getElem?_ne hjk h, fun us j k hjk => ?_⟩
  ext ws
  simp only [Option.bind_eq_some_iff]
  constructor
  · rintro ⟨vs, hj, hk⟩; exact stepUnit_swap hjk hj hk
  · rintro ⟨vs, hk, hj⟩; exact stepUnit_swap hjk.symm hk hj

end Sys2Proof.Proofs

/-! PROOF. The statement about spec/20_memory.md: the octets of a byte sequence as bits (R41). -/

namespace Sys2Proof.Proofs

open Sys2Proof.Machine Sys2Proof.Laws

/-- The eight-bit field of an octet holds its bits from the top (R41). -/
theorem uintBits_octet_getElem? (x : Octet) {j : Nat} (hj : j < 8) :
    (uintBits x.toNat 8)[j]? = some (x.getMsbD j) := by
  rw [uintBits_getElem? x.toNat hj, BitVec.getMsbD_eq_getLsbD, decide_eq_true hj, Bool.true_and,
    BitVec.testBit_toNat]

/-- Octet k is bits 8k to 8k+7, the most significant bit first (R41). -/
theorem octetsToBits_getElem? {bytes : List Octet} {k j : Nat} {o : Octet}
    (ho : bytes[k]? = some o) (hj : j < 8) :
    (octetsToBits bytes)[8 * k + j]? = some (o.getMsbD j) := by
  induction bytes generalizing k with
  | nil => simp at ho
  | cons x bytes ih =>
    rw [octetsToBits_cons]
    cases k with
    | zero =>
      obtain rfl : x = o := by simpa using ho
      rw [List.getElem?_append_left (by simp; omega), Nat.mul_zero, Nat.zero_add]
      exact uintBits_octet_getElem? x hj
    | succ k =>
      rw [List.getElem?_append_right (by simp; omega), uintBits_length,
        show 8 * (k + 1) + j - 8 = 8 * k + j by omega]
      exact ih (by simpa using ho)

/-- The octets FINISH returns hold WBUF and its padding (R112). -/
theorem octetsToBits_finishOctets (wbuf : Bits) :
    octetsToBits (finishOctets wbuf) = wbuf ++ padBits wbuf.length := by
  rw [← alignEnc_eq]; exact octetsToBits_bitsToOctets (alignEnc_octets wbuf)

/-- The padding of a bit sequence reads as the zeros past its end (R102). -/
theorem getD_of_append_padBits_getElem? {w : Bits} {n i : Nat} {b : Bool}
    (h : (w ++ padBits n)[i]? = some b) : w.getD i false = b := by
  rw [List.getD_eq_getElem?_getD]
  by_cases hi : i < w.length
  · rw [List.getElem?_append_left hi] at h
    rw [h, Option.getD_some]
  · rw [List.getElem?_append_right (by omega)] at h
    have hzero : b = false := List.eq_of_mem_replicate (List.mem_of_getElem? h)
    rw [List.getElem?_eq_none (by omega), hzero, Option.getD_none]

/-- Settles O31: NEW_DEC stores the bits of its octets, and the bits of the octets FINISH returns
are WBUF and its zero padding. -/
theorem octetViewMsbFirst : Obligations.OctetViewMsbFirst := by
  refine ⟨fun s t bytes k j o h ho hj => ?_, fun s t out k j o hready h hres ho hj => ?_⟩
  · cases h
    exact octetsToBits_getElem? ho hj
  · cases (execFinish_ok (admission_of_ready (i := .finish) hready rfl)).symm.trans h
    cases hres
    have hbit := octetsToBits_getElem? ho hj
    rw [octetsToBits_finishOctets] at hbit
    exact (getD_of_append_padBits_getElem? hbit).symm

end Sys2Proof.Proofs

/-! PROOF. The statements about spec/30_encoding.md: the decoder and the encoder (R60 to R65), the
fields a command reads (R62), the assembler's command (R69), the refusals in the order of R68, the
extension marker (R109) and the numbers over both bounds (R70). -/

namespace Sys2Proof.Proofs

open Sys2Proof.Machine Sys2Proof.Laws

/-! ### The fields of a command word (R61) -/

/-- A word is its opcode byte, its reserved bits and its flags. -/
theorem word_ext {a b : Word} (ho : opcField a = opcField b) (hr : rsvField a = rsvField b)
    (hf : flagsField a = flagsField b) : a = b := by
  have hopc (j : Nat) : (opcField a).getLsbD j = (opcField b).getLsbD j := by rw [ho]
  have hrsv (j : Nat) : (rsvField a).getLsbD j = (rsvField b).getLsbD j := by rw [hr]
  simp only [opcField, rsvField, BitVec.getLsbD_extractLsb'] at hopc hrsv
  simp only [flagsField, Flags.mk.injEq] at hf
  obtain ⟨h4, h3, h2, h1, h0⟩ := hf
  apply BitVec.eq_of_getLsbD_eq
  intro i hi
  by_cases h8 : 8 ≤ i
  · simpa [show i - 8 < 8 by omega, h8] using hopc (i - 8)
  by_cases h5 : 5 ≤ i
  · simpa [show i - 5 < 3 by omega, h5] using hrsv (i - 5)
  obtain rfl | rfl | rfl | rfl | rfl : i = 0 ∨ i = 1 ∨ i = 2 ∨ i = 3 ∨ i = 4 := by omega
  · exact h0
  · exact h1
  · exact h2
  · exact h3
  · exact h4

/-- A word whose reserved bits are 0 is the word of its opcode byte and its flags. -/
theorem wordOf_fields_of_rsv {cw : Word} (h : rsvField cw = 0) :
    wordOf (opcField cw) (flagsField cw) = cw := by
  obtain ⟨hopc, hrsv, hflags⟩ := wordOf_fields (opcField cw) (flagsField cw)
  exact word_ext hopc (hrsv.trans h.symm) hflags

/-! ### The opcode map (R63) -/

@[simp] theorem opcOf_code (o : Opc) : opcOf o.code = some o := by cases o <;> rfl

@[simp] theorem opcOfMnemonic_mnemonic (o : Opc) : opcOfMnemonic o.mnemonic = some o := by
  cases o <;> rfl

theorem opcOf_eq_some_iff {b : BitVec 8} {o : Opc} : opcOf b = some o ↔ b = o.code := by
  refine ⟨fun h => ?_, fun h => h ▸ opcOf_code o⟩
  have hcode := List.find?_some (show Opc.all.find? (fun o => o.code == b) = some o from h)
  exact (beq_iff_eq.1 hcode).symm

theorem mnemonic_inj {a b : Opc} : a.mnemonic = b.mnemonic ↔ a = b := by
  refine ⟨fun h => ?_, fun h => h ▸ rfl⟩
  rw [← Option.some_inj, ← opcOfMnemonic_mnemonic a, h, opcOfMnemonic_mnemonic]

/-! ### The decoder (R61 to R65) -/

/-- A command word that is legal with the opcode `o` (R65). -/
structure LegalWord (o : Opc) (cw : Word) : Prop where
  opcode : opcField cw = o.code
  reserved : rsvField cw = 0
  flags : o.flagRow.admits (flagsField cw) = true

/-- The decoder accepts the legal words, each as the command its opcode reads. -/
theorem decode_ok_iff {c : Command} {i : Instr} :
    decode c = .ok i ↔ ∃ o : Opc, LegalWord o c.cw ∧ o.instr (flagsField c.cw) c.op = i := by
  constructor
  · intro h
    unfold decode at h
    split at h
    · cases h
    next o ho =>
    split_ifs at h with hr ha
    cases h
    exact ⟨o, ⟨opcOf_eq_some_iff.1 ho, not_not.1 hr, ha⟩, rfl⟩
  · rintro ⟨o, h, rfl⟩
    simp [decode, h.opcode, h.reserved, h.flags]

/-- The decoder rejects a word on any of the grounds of R65. -/
theorem decode_error {c : Command} (h : opcOf (opcField c.cw) = none ∨ rsvField c.cw ≠ 0 ∨
    ∃ o, opcOf (opcField c.cw) = some o ∧ o.flagRow.admits (flagsField c.cw) = false) :
    ∃ g, decode c = .error g := by
  cases hd : decode c with
  | error g => exact ⟨g, rfl⟩
  | ok i =>
    exfalso
    obtain ⟨o, hlegal, -⟩ := decode_ok_iff.1 hd
    rw [hlegal.opcode, opcOf_code] at h
    obtain h | h | ⟨o', ho, hna⟩ := h
    · cases h
    · exact h hlegal.reserved
    · cases ho; exact Bool.false_ne_true (hna.symm.trans hlegal.flags)

/-! ### The encoder (R60 to R64) -/

/-- A bound is read back from its presence flag and its operand field (R61). -/
@[simp] theorem boundOf_isSome_getD (b : Option Int) : boundOf b.isSome (b.getD 0) = b := by
  cases b <;> rfl

@[simp] theorem isSome_boundOf (present : Bool) (v : Int) : (boundOf present v).isSome = present := by
  cases present <;> rfl

/-- The encoder's flags keep the opcode's row of the legality table (R64). -/
theorem flagRow_admits_flags (i : Instr) : i.opc.flagRow.admits i.flags = true := by
  cases i <;> simp [Instr.opc, Instr.flags, Opc.flagRow, FlagRow.admits, FlagRule.admits]

/-- The opcode reads the command back from the encoder's flags and operand record (R61, R62). -/
theorem instr_flags_operands (i : Instr) : i.opc.instr i.flags i.operands = i := by
  cases i <;> simp [Instr.opc, Instr.flags, Instr.operands, Opc.instr]

/-- The command an opcode stands for has that opcode. -/
@[simp] theorem opc_instr (o : Opc) (f : Flags) (op : Operands) : (o.instr f op).opc = o := by
  cases o <;> rfl

/-- The command read under legal flags has those flags: those it does not hold are fixed (R64). -/
theorem flags_instr {o : Opc} {f : Flags} (h : o.flagRow.admits f = true) (op : Operands) :
    (o.instr f op).flags = f := by
  obtain ⟨n, e, x, u, l⟩ := f
  cases o <;> simp_all [Opc.instr, Instr.flags, Opc.flagRow, FlagRow.admits, FlagRule.admits]

/-- Settles O1: the word's fields are the command's opcode and legal flags, from which, with the
operand record, the opcode reads the command. -/
theorem decodeEncodeRoundTrip : Obligations.DecodeEncodeRoundTrip := by
  intro i
  obtain ⟨hopc, hrsv, hflags⟩ := wordOf_fields i.opc.code i.flags
  refine decode_ok_iff.2 ⟨i.opc, ⟨hopc, hrsv, ?_⟩, ?_⟩
  · rw [encode, hflags]; exact flagRow_admits_flags i
  · rw [encode, hflags]; exact instr_flags_operands i

/-- The word of a command that was decoded is the word it was decoded from. -/
theorem encode_cw_of_decode {c : Command} {i : Instr} (h : decode c = .ok i) :
    (encode i).cw = c.cw := by
  obtain ⟨o, hlegal, rfl⟩ := decode_ok_iff.1 h
  rw [encode, opc_instr, flags_instr hlegal.flags, ← hlegal.opcode]
  exact wordOf_fields_of_rsv hlegal.reserved

/-- Settles O2: the word comes back, so the encoder's command is that word with the encoder's operand
record, and it decodes by the round trip of O1. -/
theorem decodedWordReencodes : Obligations.DecodedWordReencodes := by
  intro c i h
  have hcw := encode_cw_of_decode h
  refine ⟨hcw, ?_⟩
  rw [← hcw]
  exact decodeEncodeRoundTrip i

/-! ### The opcode table (R63, R64) -/

/-- Whether a flag rule fixes its flag, so that the flag stands in the row's mask. -/
def flagFixed : FlagRule → Bool
  | .free => false
  | .mustBe1 | .mustBe0 => true

/-- The value a flag rule fixes, and 0 for a free flag. -/
def flagValue : FlagRule → Bool
  | .mustBe1 => true
  | .free | .mustBe0 => false

theorem admits_iff_masked (r : FlagRule) (b : Bool) :
    r.admits b = true ↔ (b && flagFixed r) = flagValue r := by
  cases r <;> cases b <;> decide

/-- The flags a row of the legality table fixes. -/
def fixedFlags (r : FlagRow) : Flags :=
  ⟨flagFixed r.n, flagFixed r.e, flagFixed r.x, flagFixed r.u, flagFixed r.l⟩

/-- The values a row of the legality table fixes flags to, with the free flags 0. -/
def fixedValues (r : FlagRow) : Flags :=
  ⟨flagValue r.n, flagValue r.e, flagValue r.x, flagValue r.u, flagValue r.l⟩

/-- The row of the opcode table that R63 and R64 give an opcode: the mask covers the opcode byte, the
reserved bits and the fixed flags. -/
def rowOf (o : Opc) : OpcodeRow where
  mnemonic := o.mnemonic
  value := wordOf o.code (fixedValues o.flagRow)
  mask := 0x00E0#16 ||| wordOf 0xFF#8 (fixedFlags o.flagRow)

theorem opcodeRows_eq : opcodeRows = Opc.all.map rowOf := by rfl

theorem opc_mem_all (o : Opc) : o ∈ Opc.all := by cases o <;> decide

theorem opcField_and_mask (cw : Word) (o : Opc) :
    opcField (cw &&& (rowOf o).mask) = opcField cw := by
  have hmask : (rowOf o).mask.extractLsb' 8 8 = BitVec.allOnes 8 := by cases o <;> decide
  rw [opcField, BitVec.extractLsb'_and, hmask, BitVec.and_allOnes, opcField]

theorem rsvField_and_mask (cw : Word) (o : Opc) :
    rsvField (cw &&& (rowOf o).mask) = rsvField cw := by
  have hmask : (rowOf o).mask.extractLsb' 5 3 = BitVec.allOnes 3 := by cases o <;> decide
  rw [rsvField, BitVec.extractLsb'_and, hmask, BitVec.and_allOnes, rsvField]

/-- The masked flags have the fixed values exactly when the flags are legal (R64). -/
theorem flagsField_and_mask_iff (cw : Word) (o : Opc) :
    flagsField (cw &&& (rowOf o).mask) = fixedValues o.flagRow ↔
      o.flagRow.admits (flagsField cw) = true := by
  have hmask : flagsField (rowOf o).mask = fixedFlags o.flagRow := by cases o <;> decide
  simp only [flagsField, fixedFlags, Flags.mk.injEq] at hmask
  simp only [flagsField, fixedValues, FlagRow.admits, Flags.mk.injEq, BitVec.getLsbD_and, hmask,
    Bool.and_eq_true, admits_iff_masked, and_assoc]

/-- A word matches an opcode's row exactly when it is legal with that opcode. -/
theorem matches_row_iff (cw : Word) (o : Opc) :
    cw &&& (rowOf o).mask = (rowOf o).value ↔ LegalWord o cw := by
  obtain ⟨hopc, hrsv, hflags⟩ := wordOf_fields o.code (fixedValues o.flagRow)
  constructor
  · intro h
    refine ⟨?_, ?_, (flagsField_and_mask_iff cw o).1 ?_⟩
    · rw [← opcField_and_mask cw o, h]; exact hopc
    · rw [← rsvField_and_mask cw o, h]; exact hrsv
    · rw [h]; exact hflags
  · intro h
    refine word_ext ?_ ?_ ?_
    · rw [opcField_and_mask]; exact h.opcode.trans hopc.symm
    · rw [rsvField_and_mask]; exact h.reserved.trans hrsv.symm
    · exact ((flagsField_and_mask_iff cw o).2 h.flags).trans hflags.symm

/-- A legal word decodes to a command of its opcode, and to no other's. -/
theorem legalWord_iff_decode (o : Opc) (c : Command) :
    LegalWord o c.cw ↔ ∃ i, decode c = .ok i ∧ i.opc = o := by
  constructor
  · intro h
    exact ⟨_, decode_ok_iff.2 ⟨o, h, rfl⟩, opc_instr ..⟩
  · rintro ⟨i, hd, rfl⟩
    obtain ⟨o, hlegal, rfl⟩ := decode_ok_iff.1 hd
    rwa [opc_instr]

/-- Settles O3: the table is one row for each opcode, whose mask and value say that a word is legal
with that opcode. -/
theorem legalWordsAreTableRows : Obligations.LegalWordsAreTableRows := by
  rw [Obligations.LegalWordsAreTableRows, opcodeRows_eq]
  constructor
  · intro c row hrow
    obtain ⟨o, -, rfl⟩ := List.mem_map.1 hrow
    rw [matches_row_iff, legalWord_iff_decode]
    exact exists_congr fun i => and_congr_right fun _ => mnemonic_inj.symm
  · intro c i hd
    exact ⟨rowOf i.opc, List.mem_map_of_mem (opc_mem_all _),
      (matches_row_iff ..).2 ((legalWord_iff_decode ..).2 ⟨i, hd, rfl⟩)⟩

/-- Settles O4: the decoder computes on the words of R69 and of the vectors Z4, Z5 and Z7. -/
theorem specWordsDecode : Obligations.SpecWordsDecode :=
  ⟨rfl, rfl, rfl, rfl, rfl, rfl, rfl⟩

/-! ### The fields a command reads (R62) -/

/-- A bound is read only where its flag is set (R61). -/
theorem boundOf_congr {present : Bool} {a b : Int} (h : present = true → a = b) :
    boundOf present a = boundOf present b := by
  cases present
  · rfl
  · rw [h rfl]

/-- An opcode reads the same command from records that agree where its word reads (R62): a bound that
the opcode always reads has its flag set by the legality of the word. -/
theorem instr_congr {o : Opc} {cw : Word} {a b : Operands} (hw : LegalWord o cw)
    (h : AgreeWhereRead cw a b) : o.instr (flagsField cw) a = o.instr (flagsField cw) b := by
  have hadm := hw.flags
  rw [AgreeWhereRead, hw.opcode, opcOf_code] at h
  obtain ⟨hl, hu, hv, hb, hbits, hoctets, hn, hbytes⟩ := h
  have hlb := boundOf_congr hl
  have hub := boundOf_congr hu
  cases o <;> simp_all [Opc.instr, Opc.flagRow, FlagRow.admits, FlagRule.admits]

/-- The decoder reads the same command, or rejects the word on the same ground (R62, R65). -/
theorem decode_congr {cw : Word} {a b : Operands} (h : AgreeWhereRead cw a b) :
    decode ⟨cw, a⟩ = decode ⟨cw, b⟩ := by
  unfold decode
  dsimp only
  cases ho : opcOf (opcField cw) with
  | none => rfl
  | some o =>
    dsimp only
    split_ifs with hr ha
    · rfl
    · exact congrArg Except.ok (instr_congr ⟨opcOf_eq_some_iff.1 ho, not_not.1 hr, ha⟩ h)
    · rfl

/-- A step depends on the Host's next command only through what it decodes to. -/
theorem step_congr {c d : Command} (h : decode c = decode d) (s : State) (rest : List Command) :
    step { s with pending := c :: rest } = step { s with pending := d :: rest } := by
  cases hd : decode d with
  | error g => rw [step_illegal rfl (h.trans hd), step_illegal rfl hd]; rfl
  | ok i => rw [step_command rfl (h.trans hd), step_command rfl hd]; rfl

/-- Settles O5: the two commands decode alike. -/
theorem ignoredOperandsNeverMatter : Obligations.IgnoredOperandsNeverMatter :=
  fun s _ _ _ rest h => step_congr (decode_congr h) s rest

/-! ### The assembler's command (R69) -/

/-- The number of a word is the weighted sum of its fields (R61). -/
theorem word_toNat (w : Word) :
    w.toNat = (opcField w).toNat * 256 + (rsvField w).toNat * 32 + (flagsField w).n.toNat * 16 +
      (flagsField w).e.toNat * 8 + (flagsField w).x.toNat * 4 + (flagsField w).u.toNat * 2 +
      (flagsField w).l.toNat := by
  have hlt : w.toNat < 65536 := w.isLt
  simp only [opcField, rsvField, flagsField, BitVec.extractLsb'_toNat, BitVec.getLsbD,
    Nat.toNat_testBit, Nat.shiftRight_eq_div_pow]
  omega

/-- The assembler's command for a mnemonic of the opcode map (R69). -/
theorem assemble_mnemonic (o : Opc) (n e x : Bool) (ops : List AsmOperand) :
    assemble o.mnemonic n e x ops = some
      { cw := wordOf o.code ⟨n, e, x, ops.any AsmOperand.isUb, ops.any AsmOperand.isLb⟩
        op := ops.foldl AsmOperand.put {} } := by
  rw [assemble, opcOfMnemonic_mnemonic, Option.map_some]

/-- Operands of other fields leave a field as it was (R69). -/
theorem standsIn_foldl_iff {a : AsmOperand} {ops : List AsmOperand} (op : Operands)
    (h : ∀ b ∈ ops, a.sameField b = false) :
    a.StandsIn (ops.foldl AsmOperand.put op) ↔ a.StandsIn op := by
  induction ops generalizing op with
  | nil => exact Iff.rfl
  | cons b ops ih =>
    obtain ⟨hb, hops⟩ := List.forall_mem_cons.1 h
    rw [List.foldl_cons, ih _ hops, standsIn_put_iff op hb]

/-- The last operand written to a field stands in it (R69, log 22). -/
theorem standsIn_foldl_last {a : AsmOperand} (before : List AsmOperand) {after : List AsmOperand}
    (op : Operands) (h : ∀ b ∈ after, a.sameField b = false) :
    a.StandsIn ((before ++ a :: after).foldl AsmOperand.put op) := by
  rw [List.foldl_append, List.foldl_cons, standsIn_foldl_iff _ h]
  exact standsIn_put _ a

/-- In the record that nothing was written to, every field is 0, false or empty. -/
theorem standsIn_default : ∀ a ∈ [AsmOperand.lb 0, .ub 0, .v 0, .b false, .bits [], .octets [], .n 0,
    .bytes []], a.StandsIn {} := by
  simp [AsmOperand.StandsIn]

/-- Settles O6: the word's fields are those it was made of, and writing the operands in turn leaves
in a field the last one written to it. -/
theorem assembledWordFields : Obligations.AssembledWordFields := by
  intro o n e x ops
  refine ⟨_, assemble_mnemonic o n e x ops, ?_⟩
  obtain ⟨hopc, hrsv, hflags⟩ :=
    wordOf_fields o.code ⟨n, e, x, ops.any AsmOperand.isUb, ops.any AsmOperand.isLb⟩
  refine ⟨hopc, hrsv, hflags, ?_, ?_, ?_⟩
  · simp [word_toNat, hopc, hrsv, hflags]
  · rintro before after a rfl hafter
    exact standsIn_foldl_last before {} hafter
  · intro a ha hops
    exact (standsIn_foldl_iff {} hops).2 (standsIn_default a ha)

/-! ### Refusals (R65 to R68) -/

/-- Settles O8: the decoder rejects the word, and the step refuses what the decoder rejects. -/
theorem stepRefusesIllegalWord : Obligations.StepRefusesIllegalWord := by
  intro s c rest hp hillegal
  obtain ⟨g, hg⟩ := decode_error hillegal
  exact step_illegal hp hg

/-- Settles O19: the first of the checks that fails gives the refusal its reason. -/
theorem refusalChecksInOrder : Obligations.RefusalChecksInOrder := by
  intro i m s hm
  refine ⟨fun he => ?_, fun he hmode => ?_, fun hready hw => ?_⟩
  · exact exec_refused hm (admission_afterError he ..)
  · exact exec_refused hm (admission_modeMismatch he hmode _)
  · exact exec_refused hm (hw ▸ admission_badOperand hready.2 hready.1)

/-- The command returned `Ok` or `Err`, and REFUSED is as it was. -/
structure Returned (s t : State) : Prop where
  refused : t.refused = s.refused
  outcome : (∃ x, t.outcomes = s.outcomes ++ [.ok x]) ∨ ∃ k, t.outcomes = s.outcomes ++ [.err k]

/-- A command that passes the checks of R68 answers `Ok` or `Err`, by its shape. -/
theorem returned_of_admitted {i : Instr} {m : Mode} {s : State} (hm : requiredMode i = some m)
    (ha : admission m i.wellFormed s = none) : ∃ t, exec i s = .next t ∧ Returned s t := by
  cases exec_shape s hm with
  | finish h => subst h; exact ⟨_, execFinish_ok ha, rfl, .inl ⟨_, rfl⟩⟩
  | encode checks write h hw =>
    rw [h]
    cases checks with
    | error k => exact ⟨_, encodeCommand_error ha _, rfl, .inr ⟨k, rfl⟩⟩
    | ok u => exact ⟨_, encodeCommand_ok ha rfl _, rfl, .inl ⟨.unit, rfl⟩⟩
  | decode checks run h hr =>
    rw [h]
    cases checks with
    | error k => exact ⟨_, decodeCommand_checkError ha _, rfl, .inr ⟨k, rfl⟩⟩
    | ok u =>
      cases hrun : run s.rbuf s.cur with
      | error k => exact ⟨_, decodeCommand_error ha rfl hrun, rfl, .inr ⟨k, rfl⟩⟩
      | ok q => exact ⟨_, decodeCommand_ok ha rfl hrun, rfl, .inl ⟨q.1, rfl⟩⟩

/-- Settles O20: NEW_ENC, NEW_DEC and RELEASE return `Ok`, and the others return once admitted. -/
theorem admittedCommandIsNotRefused : Obligations.AdmittedCommandIsNotRefused := by
  intro i s t hready hw h
  cases hm : requiredMode i with
  | none =>
    obtain rfl | ⟨b, rfl⟩ | rfl := requiredMode_eq_none hm
    · cases h; exact ⟨rfl, .inl ⟨_, rfl⟩⟩
    · cases h; exact ⟨rfl, .inl ⟨_, rfl⟩⟩
    · cases h; exact ⟨rfl, .inl ⟨_, rfl⟩⟩
  | some m =>
    obtain ⟨t', h', hret⟩ := returned_of_admitted hm (admission_of_ready (hready m hm) hw)
    cases h'.symm.trans h
    exact ⟨hret.refused, hret.outcome⟩

/-! ### The extension marker (R109, R221) -/

/-- A reader that begins with the marker fails at a marker of 1, whatever it reads next. -/
theorem after_marker_set {α : Type} {rbuf : Bits} {cur : Nat} (h : rbuf[cur]? = some true)
    (f : Nat → Except ErrKind α) : (decMarker true rbuf cur >>= f) = .error .unimplemented := by
  rw [decMarker_set h]; rfl

/-- The marker and the length of a string fail at a marker of 1, and with them the string. -/
theorem after_string_marker_set {α : Type} (p : Params) (lb ub : Option Int) {rbuf : Bits}
    {cur : Nat} (h : rbuf[cur]? = some true) (f : Nat × Nat → Except ErrKind α) :
    (decStringLen p true lb ub rbuf cur >>= f) = .error .unimplemented := by
  rw [decStringLen, after_marker_set h]; rfl

/-- Settles O27: the reads of each command begin with the marker. -/
theorem markerOneUnimplemented : Obligations.MarkerOneUnimplemented := by
  intro s lb ub l u n hready hbit
  have hcur : s.cur ≤ s.rbuf.length := (List.getElem?_eq_some_iff.1 hbit).1.le
  simp only [List.forall_mem_cons, List.not_mem_nil, false_imp_iff, implies_true, and_true]
  refine ⟨⟨?_, ?_, ?_, ?_⟩, fun hlb => ⟨?_, ?_, ?_, ?_, ?_⟩⟩
  · exact decode_fails hready rfl hcur (exec_decInt ..) (after_marker_set hbit _)
  · exact decode_fails hready rfl hcur (exec_decEnum ..) (after_marker_set hbit _)
  · exact decode_fails hready rfl hcur (exec_decChoice ..) (after_marker_set hbit _)
  · exact decode_fails hready rfl hcur (exec_decSeqHdr ..) (after_marker_set hbit _)
  · exact decode_fails hready hlb hcur (exec_decBitStr ..) (after_string_marker_set _ _ _ hbit _)
  · exact decode_fails hready hlb hcur (exec_decOctStr ..) (after_string_marker_set _ _ _ hbit _)
  · exact decode_fails hready hlb hcur (exec_decVisStr ..) (after_string_marker_set _ _ _ hbit _)
  · exact decode_fails hready hlb hcur (exec_decPrtStr ..) (after_string_marker_set _ _ _ hbit _)
  · exact decode_fails hready hlb hcur (exec_decUtf8Str ..) (after_string_marker_set _ _ _ hbit _)

/-! ### Numbers over both bounds (R70, R126, R172, R210) -/

/-- The checks of ENC_ENUM and ENC_CHOICE pass within the bounds (R172, R210). -/
theorem ordinalChecks_ok {lb ub v : Int} (hl : lb ≤ v) (hu : v ≤ ub) :
    ordinalChecks false lb ub v = .ok () := by
  simp [ordinalChecks, checkNotExtended, checks_ok_iff, checkLower_ok_iff, checkUpper_ok_iff, hl, hu]

/-- The checks of ENC_INT over both bounds pass within them: no octet count is limited (R126). -/
theorem encIntChecks_ok {lb ub v : Int} (hl : lb ≤ v) (hu : v ≤ ub) :
    encIntChecks false (some lb) (some ub) v = .ok () := by
  simp [encIntChecks, checkNotExtended, checks_ok_iff, checkLower_ok_iff, checkUpper_ok_iff,
    checkIntOctets, hl, hu]

/-- Settles O40: with the checks passed, each of the three writes the marker and the number. -/
theorem encodeConstrainedNumbers : Obligations.EncodeConstrainedNumbers := by
  intro s x lb ub v hready hl hu
  rw [← encMarker_eq]
  refine ⟨?_, ?_, ?_⟩
  · exact encode_succeeds hready rfl (exec_encInt ..) (encIntChecks_ok hl hu)
  · exact encode_succeeds hready rfl (exec_encEnum ..) (ordinalChecks_ok hl hu)
  · exact encode_succeeds hready rfl (exec_encChoice ..) (ordinalChecks_ok hl hu)

end Sys2Proof.Proofs

/-! PROOF. The statements about spec/40_bit_buffer.md: the lifecycle commands (R110 to R113), what
the encode-side commands append (R100 to R103, R170), what the raw reads return and consume (R104 to
R108, R171), and the reads of a buffer that is too short (R223). -/

namespace Sys2Proof.Proofs

open Sys2Proof.Machine Sys2Proof.Laws

/-! ### Lifecycle commands (R110 to R113) -/

/-- Settles O32: the three run no check, so each answers the state its rule writes. -/
theorem createAndReleaseBuffers : Obligations.CreateAndReleaseBuffers :=
  fun _ bytes => ⟨rfl, rfl, octetsToBits_length bytes, rfl⟩

/-- FINISH returns as many octets as WBUF begins (R112). -/
theorem finishOctets_length (wbuf : Bits) : (finishOctets wbuf).length = (wbuf.length + 7) / 8 := by
  rw [finishOctets, bitsToOctets_length, alignEnc_length, pad]
  omega

/-- Settles O33: FINISH passes the checks of R68, and its octets hold WBUF and its padding. -/
theorem finishReturnsOctets : Obligations.FinishReturnsOctets := fun s hready =>
  ⟨finishOctets s.wbuf, execFinish_ok (admission_of_ready (i := .finish) hready rfl),
    octetsToBits_finishOctets s.wbuf, finishOctets_length s.wbuf⟩

/-! ### What the encode-side commands append (R101, R103, R170) -/

theorem padBits_length (n : Nat) : (padBits n).length = pad n := List.length_replicate

/-- Settles O34: none of the three makes a check of its own, so each writes its bits. -/
theorem appendAlignAndBool : Obligations.AppendAlignAndBool := by
  intro s bits b hready
  refine ⟨?_, ?_, ?_, ?_, ?_⟩
  · exact encode_succeeds hready rfl (exec_appendBits ..) rfl
  · exact encode_succeeds hready rfl (exec_alignE ..) rfl
  · rw [← alignEnc_eq]; exact alignEnc_octets s.wbuf
  · rw [padBits_length]; exact pad_lt _
  · exact encode_succeeds hready rfl (exec_encBool ..) rfl

/-! ### What the raw reads answer (R105, R107, R108, R171) -/

theorem readBool_of_getElem? {rbuf : Bits} {cur : Nat} {b : Bool} (h : rbuf[cur]? = some b) :
    readBool rbuf cur = .ok (.bool b, cur + 1) := by
  rw [readBool, readBit_of_getElem? h]
  cases b <;> rfl

theorem readBool_short {rbuf : Bits} {cur : Nat} (h : rbuf.length ≤ cur) :
    readBool rbuf cur = .error .exhausted := by
  rw [readBool, readBits_short (Nat.lt_succ_of_le h)]; rfl

theorem readValue_le {rbuf : Bits} {cur n : Nat} (h : cur + n ≤ rbuf.length) :
    readValue n rbuf cur = .ok (.bits ((rbuf.drop cur).take n), cur + n) := by
  rw [readValue, readBits_le h]; rfl

theorem readValue_short {rbuf : Bits} {cur n : Nat} (h : rbuf.length < cur + n) :
    readValue n rbuf cur = .error .exhausted := by
  rw [readValue, readBits_short h]; rfl

theorem runAlignD_octets {rbuf : Bits} {cur : Nat} (h8 : rbuf.length % 8 = 0)
    (hc : cur ≤ rbuf.length) : runAlignD rbuf cur = .ok (.unit, cur + pad cur) := by
  rw [runAlignD, alignDec_octets h8 hc]; rfl

theorem runAlignD_short {rbuf : Bits} {cur : Nat} (h : rbuf.length < cur + pad cur) :
    runAlignD rbuf cur = .error .exhausted := by
  rw [runAlignD, alignDec, if_neg (Nat.not_le.2 h)]; rfl

/-- Settles O35: each command succeeds with what its read answers. -/
theorem rawReads : Obligations.RawReads := by
  intro s hready
  refine ⟨fun b hb => ⟨?_, ?_⟩, fun n hn => ?_⟩
  · exact decode_succeeds hready rfl (exec_readBit ..) (readBool_of_getElem? hb)
  · exact decode_succeeds hready rfl (exec_decBool ..) (readBool_of_getElem? hb)
  · exact decode_succeeds hready rfl (exec_readBits ..) (readValue_le hn)

/-- Settles O36: in whole octets the next boundary is never past the end of the buffer. -/
theorem alignDecodeCursor : Obligations.AlignDecodeCursor := fun s hready h8 hcur =>
  ⟨decode_succeeds hready rfl (exec_alignD ..) (runAlignD_octets h8 hcur), add_pad_mod s.cur⟩

/-! ### A buffer that is too short (R104, R106, R109, R223) -/

/-- A reader that begins with the marker fails as the marker does, whatever it reads next. -/
theorem after_marker_error {α : Type} {x : Bool} {rbuf : Bits} {cur : Nat} {k : ErrKind}
    (h : decMarker x rbuf cur = .error k) (f : Nat → Except ErrKind α) :
    (decMarker x rbuf cur >>= f) = .error k := by
  rw [h]; rfl

/-- A string's reader fails as its marker does. -/
theorem after_string_marker_error {α : Type} (p : Params) (lb ub : Option Int) {x : Bool}
    {rbuf : Bits} {cur : Nat} {k : ErrKind} (h : decMarker x rbuf cur = .error k)
    (f : Nat × Nat → Except ErrKind α) : (decStringLen p x lb ub rbuf cur >>= f) = .error k := by
  rw [decStringLen, after_marker_error h]; rfl

/-- DEC_INT, DEC_ENUM, DEC_CHOICE and DEC_SEQHDR fail as their marker does (R109). -/
theorem decodeFails_of_marker_error {s : State} {x : Bool} {k : ErrKind} (hready : s.Ready .dec)
    (hcur : s.cur ≤ s.rbuf.length) (h : decMarker x s.rbuf s.cur = .error k) (lb ub : Option Int)
    (l u : Int) (n : Nat) :
    ∀ i ∈ [.decInt x lb ub, .decEnum x l u, .decChoice x l u, .decSeqHdr x n], DecodeFails i k s := by
  simp only [List.forall_mem_cons, List.not_mem_nil, false_imp_iff, implies_true, and_true]
  refine ⟨?_, ?_, ?_, ?_⟩
  · exact decode_fails hready rfl hcur (exec_decInt ..) (after_marker_error h _)
  · exact decode_fails hready rfl hcur (exec_decEnum ..) (after_marker_error h _)
  · exact decode_fails hready rfl hcur (exec_decChoice ..) (after_marker_error h _)
  · exact decode_fails hready rfl hcur (exec_decSeqHdr ..) (after_marker_error h _)

/-- The string decoders fail as their marker does (R109). -/
theorem decodeFails_of_string_marker_error {s : State} {x : Bool} {k : ErrKind}
    {lb : Option Int} (hready : s.Ready .dec) (hcur : s.cur ≤ s.rbuf.length)
    (hlb : lengthBoundOk lb = true) (h : decMarker x s.rbuf s.cur = .error k) (ub : Option Int) :
    ∀ i ∈ [.decBitStr x lb ub, .decOctStr x lb ub, .decVisStr x lb ub, .decPrtStr x lb ub,
      .decUtf8Str x lb ub], DecodeFails i k s := by
  simp only [List.forall_mem_cons, List.not_mem_nil, false_imp_iff, implies_true, and_true]
  refine ⟨?_, ?_, ?_, ?_, ?_⟩
  · exact decode_fails hready hlb hcur (exec_decBitStr ..) (after_string_marker_error _ _ _ h _)
  · exact decode_fails hready hlb hcur (exec_decOctStr ..) (after_string_marker_error _ _ _ h _)
  · exact decode_fails hready hlb hcur (exec_decVisStr ..) (after_string_marker_error _ _ _ h _)
  · exact decode_fails hready hlb hcur (exec_decPrtStr ..) (after_string_marker_error _ _ _ h _)
  · exact decode_fails hready hlb hcur (exec_decUtf8Str ..) (after_string_marker_error _ _ _ h _)

/-- DEC_SEQHDR fails at its marker where none is left, and at its bitmap after a clear one (R213). -/
theorem runDecSeqHdr_short {s : State} {x : Bool} {n : Nat}
    (hx : MarkerClear x s ∨ s.cur = s.rbuf.length)
    (hn : s.rbuf.length < s.cur + (marker x).length + n) :
    runDecSeqHdr x n s.rbuf s.cur = .error .exhausted := by
  by_cases hclear : MarkerClear x s
  · rw [runDecSeqHdr, decMarker_clear hclear]
    exact readValue_short hn
  · have hend := hx.resolve_left hclear
    obtain ⟨rfl, -⟩ := Classical.not_imp.1 hclear
    exact after_marker_error (decMarker_missing hend.ge) _

/-- Settles O37: the first read that finds too few bits fails, and with it the command. -/
theorem shortBufferExhausted : Obligations.ShortBufferExhausted := by
  intro s x n hready hcur
  refine ⟨fun hend => ⟨?_, ?_⟩, fun hn => ?_, fun hx hn => ?_, fun hpad => ?_,
    fun hend lb ub l u => ⟨?_, fun hlb => ?_⟩⟩
  · exact decode_fails hready rfl hcur (exec_readBit ..) (readBool_short hend.ge)
  · exact decode_fails hready rfl hcur (exec_decBool ..) (readBool_short hend.ge)
  · exact decode_fails hready rfl hcur (exec_readBits ..) (readValue_short hn)
  · exact decode_fails hready rfl hcur (exec_decSeqHdr ..) (runDecSeqHdr_short hx hn)
  · exact decode_fails hready rfl hcur (exec_alignD ..) (runAlignD_short hpad)
  · exact decodeFails_of_marker_error hready hcur (decMarker_missing hend.ge) lb ub l u n
  · exact decodeFails_of_string_marker_error hready hcur hlb (decMarker_missing hend.ge) ub

end Sys2Proof.Proofs

/-! PROOF. The statements about spec/41_whole_number.md: the layout of a constrained whole number on
both sides (R120, R121), the integers that carry their own octet count (R122 to R125), ENC_INT and
DEC_INT (R126, R127), and that the second recovers what the first wrote (R128). -/

namespace Sys2Proof.Proofs

open Sys2Proof.Machine Sys2Proof.Laws

/-! ### ENC_INT's checks (R126, R225) -/

/-- A ready encode command that succeeds passed its checks and left what it writes. -/
theorem wrote_of_afterEncode {i : Instr} {s : State} {checks : Except ErrKind Unit}
    {write : Bits → Bits} {w : Bits} (hready : s.Ready .enc) (hw : i.wellFormed = true)
    (hi : exec i s = encodeCommand i.wellFormed checks write s)
    (hok : exec i s = .next (s.afterEncode w)) : checks = .ok () ∧ w = write s.wbuf := by
  cases hc : checks with
  | error k =>
    obtain ⟨d, hfail⟩ := encode_fails hready hw hi hc
    rw [hok, Host.Outcome.next.injEq] at hfail
    have hres : (some .unit : Option Value) = none := congrArg State.res hfail
    cases hres
  | ok u =>
    rw [encode_succeeds hready hw hi hc, Host.Outcome.next.injEq] at hok
    exact ⟨rfl, congrArg State.wbuf hok.symm⟩

/-- ENC_INT's checks with E = 0 are its bounds and the limit on its own octet count (R126). -/
theorem encIntChecks_ok_iff (lb ub : Option Int) (v : Int) :
    encIntChecks false lb ub v = .ok () ↔ InBounds lb ub v ∧ checkIntOctets lb ub v = .ok () := by
  simp [encIntChecks, checkNotExtended, checks_ok_iff, checkLower_ok_iff, checkUpper_ok_iff,
    and_assoc]

/-! ### The octets of an integer that carries its own octet count (R123, R125) -/

theorem lengthForm_shortestLength {n : Nat} (h : n < 16384) : LengthForm n (shortestLength n) := by
  unfold shortestLength
  split
  · next hn => exact .inl ⟨hn, rfl⟩
  · exact .inr ⟨h, rfl⟩

/-- The octets that stand after a length form of their number, one at least. -/
theorem decIntOctets_form {rbuf front hdr body rest : Bits} {k cur : Nat} (hh : LengthForm k hdr)
    (hk : 1 ≤ k) (hb : body.length = 8 * k) (hr : rbuf = front ++ hdr ++ body ++ rest)
    (hf : front.length = cur + (8 - cur % 8) % 8) :
    decIntOctets rbuf cur = .ok (body, front.length + hdr.length + 8 * k) := by
  rw [decIntOctets, decUnconLen_form hh (rest := body ++ rest) (by simp [hr]) hf]
  change (if 1 ≤ k then readBits rbuf _ (8 * k) else _) = _
  rw [if_pos hk, readBits_at (front := front ++ hdr) hr (by simp) hb.symm]

/-- The octets that the encode side writes: padding, their number in its shortest form, the octets
(R122, R124). -/
theorem decIntOctets_encUnconLen {rbuf w body rest : Bits} {k : Nat} (hk : 1 ≤ k)
    (hlt : k < 16384) (hb : body.length = 8 * k) (hr : rbuf = encUnconLen k w ++ body ++ rest) :
    decIntOctets rbuf w.length = .ok (body, (encUnconLen k w ++ body).length) := by
  rw [encUnconLen_eq] at hr ⊢
  rw [decIntOctets_form (lengthForm_shortestLength hlt) hk hb hr (by simp [padBits])]
  simp [hb, Nat.add_assoc]

/-! ### DEC_INT recovers what ENC_INT wrote (R128) -/

theorem decSemi_encSemi {lb v : Int} (hl : lb ≤ v) (hlt : nonnegOctets (v - lb).toNat < 16384)
    {rbuf w rest : Bits} (hr : rbuf = encSemi lb v w ++ rest) :
    decSemi lb rbuf w.length = .ok (v, (encSemi lb v w).length) := by
  have hoff : lb + ((v - lb).toNat : Int) = v := by omega
  rw [decSemi, decIntOctets_encUnconLen (one_le_nonnegOctets _) hlt (uintBits_length ..) hr]
  change Except.ok (lb + (uint (uintBits _ _) : Int), _) = _
  rw [uint_uintBits (lt_nonnegOctets _), hoff]
  rfl

theorem decUncon_encUncon {v : Int} (hlt : twosOctets v < 16384) {rbuf w rest : Bits}
    (hr : rbuf = encUncon v w ++ rest) :
    decUncon rbuf w.length = .ok (v, (encUncon v w).length) := by
  obtain ⟨hk, hlo, hhi⟩ := (twosOctets_le_iff v _).1 le_rfl
  rw [decUncon, decIntOctets_encUnconLen hk hlt (twosBits_length ..) hr]
  change Except.ok (sint (twosBits _ _), _) = _
  rw [sint_twosBits (by omega) hlo hhi]
  rfl

/-- Each of ENC_INT's forms is read back by DEC_INT's form over the same bounds. -/
theorem decIntForm_encIntForm (p : Params) {lb ub : Option Int} {v : Int}
    (hb : InBounds lb ub v) (hc : checkIntOctets lb ub v = .ok ()) {rbuf w rest : Bits}
    (hr : rbuf = encIntForm p lb ub v w ++ rest) :
    decIntForm p lb ub rbuf w.length = .ok (v, (encIntForm p lb ub v w).length) := by
  obtain ⟨hl, hu⟩ := hb
  match lb, ub with
  | some l, some u => exact decCwnValue_encCwn p (hl l rfl) (hu u rfl) hr
  | some l, none => exact decSemi_encSemi (hl l rfl) ((checkNotFragmented_ok_iff ..).1 hc) hr
  | none, ub =>
    have hlt : twosOctets v < 16384 := (checkNotFragmented_ok_iff ..).1 hc
    simp only [decIntForm, encIntForm] at hr ⊢
    rw [decUncon_encUncon hlt hr]
    simp only [bind, Except.bind]
    rw [(checkUpper_ok_iff ub v ()).2 hu]

/-- DEC_INT's reads recover what ENC_INT wrote, marker included. -/
theorem runDecInt_encIntForm (p : Params) {x : Bool} {lb ub : Option Int} {v : Int}
    (hb : InBounds lb ub v) (hc : checkIntOctets lb ub v = .ok ()) {rbuf w rest : Bits}
    (hr : rbuf = encIntForm p lb ub v (encMarker x w) ++ rest) :
    runDecInt p x lb ub rbuf w.length =
      .ok (.int v, (encIntForm p lb ub v (encMarker x w)).length) := by
  obtain ⟨new, hnew⟩ := encIntForm_extends p lb ub v (encMarker x w)
  rw [runDecInt, decMarker_encMarker (rest := new ++ rest) (by rw [hr, ← hnew, List.append_assoc])]
  simp only [bind, Except.bind]
  rw [decIntForm_encIntForm p hb hc hr]

/-- Settles O45: ENC_INT's success gives its checks and its bits, and DEC_INT reads those back. -/
theorem integerRoundTrip : Obligations.IntegerRoundTrip := by
  intro s t x lb ub v w rest hs ht hp henc hr hcur
  obtain ⟨hchecks, rfl⟩ := wrote_of_afterEncode hs rfl (exec_encInt ..) henc
  obtain ⟨hb, hc⟩ := (encIntChecks_ok_iff lb ub v).1 hchecks
  refine decode_succeeds ht rfl (exec_decInt ..) ?_
  rw [hp, hcur]
  exact runDecInt_encIntForm s.params hb hc hr

/-! ### The layout of a constrained whole number (R120, R121) -/

/-- The octet count of the large form is a constrained whole number of its own, over `[1, K]`. -/
theorem encCwn_octetCount (p : Params) {K k : Nat} (hk : 1 ≤ k) (w : Bits) :
    encCwn p 1 K k w = cwnEncode p (cwnFuel K) K (k - 1) w := by
  have hr : rangeSize 1 K = K := by simp [rangeSize]
  have hn : ((k : Int) - 1).toNat = k - 1 := by omega
  rw [encCwn, hr, hn]

/-- Settles O38: `cwnEncode_eq` over the number of values as an integer, with the large form's octet
count as `EncCWN`. -/
theorem encCwnLayout : Obligations.EncCwnLayout := by
  intro p lb ub v w hl hu
  obtain ⟨r, hr⟩ := Int.eq_ofNat_of_zero_le (show 0 ≤ ub - lb + 1 by omega)
  have hK : ((r : Int) - 1).toNat = r - 1 := by omega
  simp only [encCwn_octetCount _ (one_le_nonnegOctets _), hr, hK, ← alignEnc_eq, Int.toNat_natCast]
  rw [encCwn, rangeSize, hr, Int.toNat_natCast, cwnEncode_eq]
  norm_cast
  cases p.cwnLargeForm with
  | x691LengthPrefixed => simp only [if_true]
  | fixedRangeOctets => simp only [reduceCtorEq, if_false]

/-- The closing check of `DecCWN` as the statements write it. -/
theorem bind_checkOffset {r : Nat} (hr : 1 ≤ r) (q : Except ErrKind (Nat × Nat)) :
    (q >>= checkOffset r) = offsetIn r q := by
  cases q with
  | error k => rfl
  | ok a =>
    have hiff : a.1 ≤ r - 1 ↔ (a.1 : Int) ≤ r - 1 := by omega
    simp only [bind, Except.bind, checkOffset, offsetIn, hiff]

theorem decCwn_octetCount (p : Params) (K : Nat) (rbuf : Bits) (cur : Nat) :
    decCwn p 1 K rbuf cur = cwnDecode p rbuf (cwnFuel K) K cur := by
  have hr : rangeSize 1 K = K := by simp [rangeSize]
  rw [decCwn, hr]

/-- Settles O39: an empty range has no values, and for any other `cwnDecode_eq` is the layout. -/
theorem decCwnLayout : Obligations.DecCwnLayout := by
  intro p lb ub rbuf cur
  by_cases hempty : ub - lb + 1 < 1
  · have hr : rangeSize lb ub = 0 := by rw [rangeSize]; omega
    rw [decCwn, hr, cwnDecode_eq, if_pos rfl, if_pos hempty]
  obtain ⟨r, hr⟩ := Int.eq_ofNat_of_zero_le (show 0 ≤ ub - lb + 1 by omega)
  have hK : ((r : Int) - 1).toNat = r - 1 := by omega
  have h1 : 1 ≤ r := by omega
  simp only [decCwn_octetCount, hr, hK, Int.toNat_natCast]
  rw [decCwn, rangeSize, hr, Int.toNat_natCast, cwnDecode_eq]
  simp only [bind_checkOffset h1, readUint_eq, readUintAligned_eq]
  norm_cast
  rw [if_neg (show ¬ r = 0 by omega), if_neg (show ¬ r < 1 by omega)]
  cases p.cwnLargeForm with
  | x691LengthPrefixed =>
    simp only [if_true]
    cases cwnDecode p rbuf (cwnFuel (nonnegOctets (r - 1))) (nonnegOctets (r - 1)) cur <;> rfl
  | fixedRangeOctets => simp only [reduceCtorEq, if_false]

/-! ### The octet integers, encoded (R122, R124) -/

/-- Settles O41: the checks are the two premises, and the bits are the form's. -/
theorem encodeOctetIntegers : Obligations.EncodeOctetIntegers := by
  intro s x v hready
  rw [← encMarker_eq]
  refine ⟨fun lb hl hk => ?_, fun ub hu hk => ?_⟩
  · refine encode_succeeds hready rfl (exec_encInt ..) ((encIntChecks_ok_iff ..).2 ⟨?_, ?_⟩)
    · exact ⟨by rintro _ ⟨⟩; exact hl, by rintro _ ⟨⟩⟩
    · exact (checkNotFragmented_ok_iff ..).2 hk
  · refine encode_succeeds hready rfl (exec_encInt ..) ((encIntChecks_ok_iff ..).2 ⟨?_, ?_⟩)
    · exact ⟨by rintro _ ⟨⟩, hu⟩
    · exact (checkNotFragmented_ok_iff ..).2 hk

/-! ### Numbers over both bounds, decoded (R109, R127, R173, R211) -/

/-- DEC_INT over both bounds makes the reads of DEC_ENUM and DEC_CHOICE (R127). -/
theorem exec_decInt_bounds (x : Bool) (lb ub : Int) (s : State) :
    exec (.decInt x (some lb) (some ub)) s =
      decodeCommand true (.ok ()) (runDecOrdinal s.params x lb ub) s := rfl

/-- Those reads after a clear marker are DecCWN's, with lb added to the offset. -/
theorem runDecOrdinal_clear {s : State} {x : Bool} (h : MarkerClear x s) (lb ub : Int) :
    runDecOrdinal s.params x lb ub s.rbuf s.cur =
      (decCwn s.params lb ub s.rbuf (s.cur + (marker x).length) >>= fun q =>
        .ok (.int (lb + q.1), q.2)) := by
  rw [runDecOrdinal, decMarker_clear h]
  simp only [bind, Except.bind, decCwnValue]
  cases decCwn s.params lb ub s.rbuf (s.cur + (marker x).length) <;> rfl

/-- Settles O42: after a clear marker all three answer as `DecCWN` does, with lb added. -/
theorem decodeConstrainedNumbers : Obligations.DecodeConstrainedNumbers := by
  intro s x lb ub hready hcur hclear
  have hread := runDecOrdinal_clear hclear lb ub
  refine ⟨fun n c hn => ?_, fun k hk => ?_⟩
  · rw [hn] at hread
    refine ⟨?_, ?_, ?_⟩
    · exact decode_succeeds hready rfl (exec_decInt_bounds ..) hread
    · exact decode_succeeds hready rfl (exec_decEnum ..) hread
    · exact decode_succeeds hready rfl (exec_decChoice ..) hread
  · rw [hk] at hread
    refine ⟨?_, ?_, ?_⟩
    · exact decode_fails hready rfl hcur (exec_decInt_bounds ..) hread
    · exact decode_fails hready rfl hcur (exec_decEnum ..) hread
    · exact decode_fails hready rfl hcur (exec_decChoice ..) hread

/-! ### The octet integers, decoded (R123, R125, R153, R223) -/

/-- DEC_INT's reads after a clear marker are those of its form. -/
theorem runDecInt_clear {s : State} {x : Bool} (h : MarkerClear x s) (lb ub : Option Int) :
    runDecInt s.params x lb ub s.rbuf s.cur =
      (decIntForm s.params lb ub s.rbuf (s.cur + (marker x).length) >>= fun q =>
        .ok (.int q.1, q.2)) := by
  rw [runDecInt, decMarker_clear h]; rfl

/-- DEC_INT with lb only returns lb plus its octets as an unsigned number (R123). -/
theorem runDecInt_semi {s : State} {x : Bool} {body : Bits} {c : Nat} (hclear : MarkerClear x s)
    (h : decIntOctets s.rbuf (s.cur + (marker x).length) = .ok (body, c)) (lb : Int) :
    runDecInt s.params x (some lb) none s.rbuf s.cur = .ok (.int (lb + uint body), c) := by
  rw [runDecInt_clear hclear, decIntForm, decSemi, h]; rfl

/-- DEC_INT with lb absent returns its octets as a two's-complement number, if that is at most a
present ub (R125, R127). -/
theorem runDecInt_uncon {s : State} {x : Bool} {body : Bits} {c : Nat} (hclear : MarkerClear x s)
    (h : decIntOctets s.rbuf (s.cur + (marker x).length) = .ok (body, c)) (ub : Option Int) :
    runDecInt s.params x none ub s.rbuf s.cur =
      if ∀ u, ub = some u → sint body ≤ u then .ok (.int (sint body), c)
      else .error .boundsViolation := by
  rw [runDecInt_clear hclear, decIntForm, decUncon, h]
  simp only [bind, Except.bind]
  rw [checkUpper_eq]
  split_ifs <;> rfl

/-- Both octet forms of DEC_INT fail as the read of their octets does. -/
theorem decInt_octets_fail {s : State} {x : Bool} {k : ErrKind} (hready : s.Ready .dec)
    (hclear : MarkerClear x s) (hcur : s.cur ≤ s.rbuf.length)
    (h : decIntOctets s.rbuf (s.cur + (marker x).length) = .error k) (lb : Int) (ub : Option Int) :
    DecodeFails (.decInt x (some lb) none) k s ∧ DecodeFails (.decInt x none ub) k s := by
  refine ⟨decode_fails hready rfl hcur (exec_decInt ..) ?_,
    decode_fails hready rfl hcur (exec_decInt ..) ?_⟩
  · rw [runDecInt_clear hclear, decIntForm, decSemi, h]; rfl
  · rw [runDecInt_clear hclear, decIntForm, decUncon, h]; rfl

theorem decIntOctets_of_length_error {rbuf : Bits} {cur : Nat} {k : ErrKind}
    (h : decUnconLen rbuf cur = .error k) : decIntOctets rbuf cur = .error k := by
  rw [decIntOctets, h]; rfl

/-- An octet count of 0 (R123, R125). -/
theorem decIntOctets_zero {rbuf front hdr rest : Bits} {cur : Nat} (hh : LengthForm 0 hdr)
    (hr : rbuf = front ++ hdr ++ rest) (hf : front.length = cur + (8 - cur % 8) % 8) :
    decIntOctets rbuf cur = .error .boundsViolation := by
  rw [decIntOctets, decUnconLen_form hh hr hf]; rfl

/-- Fewer octets than the count says (R223). -/
theorem decIntOctets_short {rbuf front hdr body : Bits} {k cur : Nat} (hh : LengthForm k hdr)
    (hb : body.length < 8 * k) (hr : rbuf = front ++ hdr ++ body)
    (hf : front.length = cur + (8 - cur % 8) % 8) :
    decIntOctets rbuf cur = .error .exhausted := by
  rw [decIntOctets, decUnconLen_form hh hr hf]
  change (if 1 ≤ k then readBits rbuf _ (8 * k) else _) = _
  rw [if_pos (by omega), readBits_short (by simp [hr]; omega)]

/-- Settles O43: the octets are read whatever their form and number, and DEC_INT returns them. -/
theorem decodeOctetIntegers : Obligations.DecodeOctetIntegers := by
  intro s x k front hdr body rest hready hclear hr hf hh hk hb
  have hoct := decIntOctets_form hh hk hb hr hf
  refine ⟨fun lb => ?_, fun ub hu => ?_⟩
  · exact decode_succeeds hready rfl (exec_decInt ..) (runDecInt_semi hclear hoct lb)
  · refine decode_succeeds hready rfl (exec_decInt ..) ?_
    rw [runDecInt_uncon hclear hoct, if_pos hu]

/-- Settles O44: the read of the octets fails in the first four cases; in the last it answers, and
the closing check of the upper bound fails. -/
theorem decodeOctetIntegerErrors : Obligations.DecodeOctetIntegerErrors := by
  intro s x lb ub hready hclear hcur
  have fails {k} (h : decIntOctets s.rbuf (s.cur + (marker x).length) = .error k) :=
    decInt_octets_fail hready hclear hcur h lb ub
  refine ⟨fun hcut => ?_, fun k front hdr body hr hf =>
    ⟨fun h0 => ?_, fun hh hb => ?_, fun h11 => ?_, fun u hh hk hb hu => ?_⟩⟩
  · exact fails (decIntOctets_of_length_error (decUnconLen_cutShort hcut))
  · exact fails (decIntOctets_zero h0 hr hf)
  · exact fails (decIntOctets_short hh hb hr hf)
  · subst h11
    exact fails (decIntOctets_of_length_error (decUnconLen_fragmented hr hf))
  · have hsplit : s.rbuf = front ++ hdr ++ body.take (8 * k) ++ body.drop (8 * k) := by
      rw [List.append_assoc _ (body.take _), List.take_append_drop, hr]
    have hoct := decIntOctets_form hh hk (List.length_take_of_le hb) hsplit hf
    refine decode_fails hready rfl hcur (exec_decInt ..) ?_
    rw [runDecInt_uncon hclear hoct, if_neg fun h => hu.not_ge (h u rfl)]

end Sys2Proof.Proofs

/-! PROOF. The statements about spec/42_length_determinant.md: what each regime of a length writes
and reads (R151 to R155), ENC_LEN and DEC_LEN (R156, R157), and that the second recovers what the
first wrote. -/

namespace Sys2Proof.Proofs

open Sys2Proof.Machine Sys2Proof.Laws

/-! ### What a determinant writes in each regime (R151, R152, R154) -/

theorem lengthRegime_of_lt {u : Int} (hu : u < 65536) (lb : Option Int) :
    lengthRegime lb (some u) = some (lb.getD 0, u) := if_pos hu

theorem encLen_constrained (p : Params) (lb : Option Int) {u : Int} (hu : u < 65536) (n : Nat)
    (w : Bits) : encLen p lb (some u) n w = encCwn p (lb.getD 0) u n w := by
  rw [encLen, lengthRegime_of_lt hu]

theorem encLen_unconstrained (p : Params) (lb : Option Int) {ub : Option Int}
    (hub : ∀ u, ub = some u → 65536 ≤ u) (n : Nat) (w : Bits) :
    encLen p lb ub n w = w ++ padBits w.length ++ shortestLength n := by
  rw [encLen, (lengthRegime_none_iff lb ub).2 hub]
  exact encUnconLen_eq n w

/-- Settles O53: the regime selects one form or the other. -/
theorem stringDeterminant : Obligations.StringDeterminant := by
  intro p lb ub n w
  refine ⟨?_, fun hub => encLen_unconstrained p lb hub n w⟩
  rintro u rfl hu
  exact encLen_constrained p lb hu n w

/-! ### A number that `DecCWN` reads lies in its range (R121) -/

theorem le_of_offsetIn_ok {r : Int} {q : Except ErrKind (Nat × Nat)} {n c : Nat}
    (h : offsetIn r q = .ok (n, c)) : (n : Int) ≤ r - 1 := by
  match q with
  | .error k => cases h
  | .ok (n', c') =>
    rw [offsetIn] at h
    split at h
    · next hle => cases h; exact hle
    · cases h

theorem le_of_decCwn_ok {p : Params} {lb ub : Int} {rbuf : Bits} {cur n c : Nat}
    (h : decCwn p lb ub rbuf cur = .ok (n, c)) : lb + n ≤ ub := by
  suffices hn : (n : Int) ≤ ub - lb + 1 - 1 by omega
  rw [decCwnLayout p lb ub rbuf cur] at h
  dsimp only at h
  split at h
  · cases h
  split at h
  · next hone => cases h; omega
  split at h
  · exact le_of_offsetIn_ok h
  split at h
  · exact le_of_offsetIn_ok h
  split at h
  · exact le_of_offsetIn_ok h
  split at h
  · split at h
    · exact le_of_offsetIn_ok h
    · cases h
  · exact le_of_offsetIn_ok h

theorem decCwnValue_of_ok {p : Params} {lb ub : Int} {rbuf : Bits} {cur n c : Nat}
    (h : decCwn p lb ub rbuf cur = .ok (n, c)) :
    decCwnValue p lb ub rbuf cur = .ok (lb + n, c) := by
  rw [decCwnValue, h]; rfl

theorem decCwnValue_of_error {p : Params} {lb ub : Int} {rbuf : Bits} {cur : Nat} {k : ErrKind}
    (h : decCwn p lb ub rbuf cur = .error k) : decCwnValue p lb ub rbuf cur = .error k := by
  rw [decCwnValue, h]; rfl

/-! ### What `DecLen` answers in each regime (R151, R153, R155) -/

/-- `DecLen` is the read of the regime, then the two closing checks. -/
theorem decLen_eq (p : Params) (lb ub : Option Int) (rbuf : Bits) (cur : Nat) :
    decLen p lb ub rbuf cur = decLenRaw p lb ub rbuf cur >>= fun q =>
      if InBounds lb ub q.1 then .ok q else .error .boundsViolation := by
  rw [decLen]
  cases decLenRaw p lb ub rbuf cur with
  | error k => rfl
  | ok q => exact checkBounds_eq lb ub q.1 (.ok q)

/-- In the constrained regime the closing checks always hold, so `DecLen` is `lb + DecCWN`. -/
theorem decLen_constrained (p : Params) (lb : Option Int) {u : Int} (hu : u < 65536) (rbuf : Bits)
    (cur : Nat) : decLen p lb (some u) rbuf cur = decCwnValue p (lb.getD 0) u rbuf cur := by
  rw [decLen_eq, decLenRaw, lengthRegime_of_lt hu]
  dsimp only
  cases h : decCwn p (lb.getD 0) u rbuf cur with
  | error k => rw [decCwnValue_of_error h]; rfl
  | ok q =>
    rw [decCwnValue_of_ok h]
    refine if_pos ⟨?_, ?_⟩
    · rintro l rfl
      exact Int.le_add_of_nonneg_right (Int.natCast_nonneg _)
    · rintro _ ⟨⟩
      exact le_of_decCwn_ok h

/-- In the unconstrained regime `DecLen` is `DecUnconLen` and the closing checks. -/
theorem decLen_unconstrained (p : Params) (lb : Option Int) {ub : Option Int}
    (hub : ∀ u, ub = some u → 65536 ≤ u) (rbuf : Bits) (cur : Nat) :
    decLen p lb ub rbuf cur = decUnconLen rbuf cur >>= fun q =>
      if InBounds lb ub q.1 then .ok ((q.1 : Int), q.2) else .error .boundsViolation := by
  rw [decLen_eq, decLenRaw, (lengthRegime_none_iff lb ub).2 hub]
  cases decUnconLen rbuf cur <;> rfl

theorem decLen_unconstrained_error (p : Params) (lb : Option Int) {ub : Option Int}
    (hub : ∀ u, ub = some u → 65536 ≤ u) {rbuf : Bits} {cur : Nat} {k : ErrKind}
    (h : decUnconLen rbuf cur = .error k) : decLen p lb ub rbuf cur = .error k := by
  rw [decLen_unconstrained p lb hub, h]; rfl

/-- `DecLen` where either form of a length stands after the padding. -/
theorem decLen_form (p : Params) (lb : Option Int) {ub : Option Int}
    (hub : ∀ u, ub = some u → 65536 ≤ u) {rbuf front hdr rest : Bits} {n cur : Nat}
    (hh : LengthForm n hdr) (hr : rbuf = front ++ hdr ++ rest)
    (hf : front.length = cur + (8 - cur % 8) % 8) :
    decLen p lb ub rbuf cur =
      if InBounds lb ub n then .ok ((n : Int), front.length + hdr.length)
      else .error .boundsViolation := by
  rw [decLen_unconstrained p lb hub, decUnconLen_form hh hr hf]; rfl

/-- Settles O56: each case is what the read of its regime answers, then the closing checks. -/
theorem stringLengthRead : Obligations.StringLengthRead := by
  intro p lb ub rbuf cur _
  refine ⟨?_, fun hub => ⟨fun hcut => ?_, fun front hdr rest hr hf => ⟨?_, fun n hh => ?_⟩⟩⟩
  · rintro u rfl hu
    rw [decLen_constrained p lb hu]
    cases h : decCwn p (lb.getD 0) u rbuf cur with
    | error k => exact decCwnValue_of_error h
    | ok q => exact decCwnValue_of_ok h
  · exact decLen_unconstrained_error p lb hub (decUnconLen_cutShort hcut)
  · rintro rfl
    exact decLen_unconstrained_error p lb hub (decUnconLen_fragmented hr hf)
  · exact decLen_form p lb hub hh hr hf

/-! ### DEC_LEN (R150, R157) -/

/-- DEC_LEN with N = 0 returns what `DecLen` reads. -/
theorem exec_decLen_ok {s : State} {lb ub : Option Int} {v : Int} {c : Nat} (hready : s.Ready .dec)
    (hlb : lengthBoundOk lb = true) (h : decLen s.params lb ub s.rbuf s.cur = .ok (v, c)) :
    exec (.decLen false lb ub) s = .next (s.afterDecode (.int v) c) :=
  decode_succeeds hready hlb (exec_decLen ..) (by rw [runDecLen, h]; rfl)

/-- DEC_LEN with N = 0 fails as `DecLen` does. -/
theorem decodeFails_decLen {s : State} {lb ub : Option Int} {k : ErrKind} (hready : s.Ready .dec)
    (hcur : s.cur ≤ s.rbuf.length) (hlb : lengthBoundOk lb = true)
    (h : decLen s.params lb ub s.rbuf s.cur = .error k) : DecodeFails (.decLen false lb ub) k s :=
  decode_fails hready hlb hcur (exec_decLen ..) (by rw [runDecLen, h]; rfl)

/-- Settles O47: `DecLen` answers in both regimes, and DEC_LEN returns the answer. -/
theorem decodeLength : Obligations.DecodeLength := by
  intro s lb ub hready hlb
  refine ⟨?_, fun n front hdr rest hub hr hf hh hb => ?_⟩
  · rintro u n c rfl hu hn
    exact exec_decLen_ok hready hlb ((decLen_constrained _ lb hu ..).trans (decCwnValue_of_ok hn))
  · refine exec_decLen_ok hready hlb ?_
    rw [decLen_form _ lb hub hh hr hf, if_pos hb]

/-- Settles O48: N = 1 fails the check before any read, and every other error is `DecLen`'s. -/
theorem decodeLengthErrors : Obligations.DecodeLengthErrors := by
  intro s lb ub hready hcur hlb
  have fails {k} (h : decLen s.params lb ub s.rbuf s.cur = .error k) :=
    decodeFails_decLen hready hcur hlb h
  refine ⟨?_, ?_, fun hub hcut => ?_, fun front hdr rest hub hr hf => ⟨?_, fun n hh hb => ?_⟩⟩
  · exact ⟨_, (exec_decLen ..).trans
      (decodeCommand_checkError (admission_of_ready (i := .decLen true lb ub) hready hlb) _)⟩
  · rintro u k rfl hu hk
    exact fails ((decLen_constrained _ lb hu ..).trans (decCwnValue_of_error hk))
  · exact fails (decLen_unconstrained_error _ lb hub (decUnconLen_cutShort hcut))
  · rintro rfl
    exact fails (decLen_unconstrained_error _ lb hub (decUnconLen_fragmented hr hf))
  · exact fails ((decLen_form _ lb hub hh hr hf).trans (if_neg hb))

/-! ### ENC_LEN (R156) -/

/-- ENC_LEN's checks with N = 0 are its bounds and the limit of the unconstrained form. -/
theorem encLenChecks_ok_iff (lb ub : Option Int) (v : Int) :
    encLenChecks false lb ub v = .ok () ↔
      InBounds lb ub v ∧ ((∀ u, ub = some u → 65536 ≤ u) → v.toNat < 16384) := by
  simp [encLenChecks, checkNotSmall, checks_ok_iff, checkLower_ok_iff, checkUpper_ok_iff,
    checkDeterminant_ok_iff, lengthRegime_none_iff, and_assoc]

/-- ENC_LEN with N = 0, legal operands and its checks passed writes the determinant. -/
theorem exec_encLen_ok {s : State} {lb ub : Option Int} {v : Int} (hready : s.Ready .enc)
    (hlb : lengthBoundOk lb = true) (hv : 0 ≤ v) (hb : InBounds lb ub v)
    (hlim : (∀ u, ub = some u → 65536 ≤ u) → v.toNat < 16384) :
    exec (.encLen false lb ub v) s =
      .next (s.afterEncode (encLen s.params lb ub v.toNat s.wbuf)) :=
  encode_succeeds hready (by simp [Instr.wellFormed, hlb, hv]) (exec_encLen ..)
    ((encLenChecks_ok_iff ..).2 ⟨hb, hlim⟩)

/-- Settles O46: the determinant that ENC_LEN writes, in each regime. -/
theorem encodeLength : Obligations.EncodeLength := by
  intro s lb ub v hready hlb hv hb
  refine ⟨?_, fun hub hlt => ?_⟩
  · rintro u rfl hu
    rw [exec_encLen_ok hready hlb hv hb fun hub => absurd (hub u rfl) hu.not_ge,
      encLen_constrained _ _ hu, Int.toNat_of_nonneg hv]
  · rw [exec_encLen_ok hready hlb hv hb fun _ => by omega, encLen_unconstrained _ _ hub]

/-! ### DEC_LEN recovers what ENC_LEN wrote (R156, R157) -/

/-- A ready encode command that succeeds had its operands in their domains (R67). -/
theorem wellFormed_of_afterEncode {i : Instr} {s : State} {w : Bits}
    (hm : requiredMode i = some .enc) (hready : s.Ready .enc)
    (hok : exec i s = .next (s.afterEncode w)) : i.wellFormed = true := by
  by_contra hw
  have ha : admission .enc i.wellFormed s = some .badOperand := by
    rw [Bool.eq_false_of_not_eq_true hw]
    exact admission_badOperand hready.2 hready.1
  rw [exec_refused hm ha, Host.Outcome.next.injEq] at hok
  have hres : (none : Option Value) = some .unit := congrArg State.res hok
  cases hres

/-- Settles O49: ENC_LEN's success gives its operand domains, its checks and its bits, and `DecLen`
reads those back. -/
theorem lengthRoundTrip : Obligations.LengthRoundTrip := by
  intro s t lb ub v w rest hs ht hp henc hr hcur
  have hw := wellFormed_of_afterEncode rfl hs henc
  obtain ⟨hchecks, rfl⟩ := wrote_of_afterEncode hs hw (exec_encLen ..) henc
  obtain ⟨hlb, hv⟩ : lengthBoundOk lb = true ∧ 0 ≤ v := by simpa [Instr.wellFormed] using hw
  obtain ⟨hb, hlim⟩ := (encLenChecks_ok_iff lb ub v).1 hchecks
  obtain ⟨n, rfl⟩ := Int.eq_ofNat_of_zero_le hv
  refine exec_decLen_ok ht hlb ?_
  rw [hp, hcur]
  exact decLen_encLen s.params hb.1 hb.2 (fun hreg => hlim ((lengthRegime_none_iff ..).1 hreg)) hr

end Sys2Proof.Proofs

/-! PROOF. The statements about spec/44_strings.md: what the string encoders write (R180, R184, R188),
what the string decoders return and how they fail (R181, R185, R189), and that each decoder recovers
what its encoder wrote. -/

namespace Sys2Proof.Proofs

open Sys2Proof.Machine Sys2Proof.Laws

/-! ### The checks of the encoders (R180, R184, R188) -/

theorem stringChecks_ok_iff (lb ub : Option Int) (len : Nat) :
    stringChecks false lb ub len = .ok () ↔ InBounds lb ub len := by
  simp [stringChecks, checkNotExtended, checks_ok_iff, checkLower_ok_iff, checkUpper_ok_iff]

/-- A bit or octet string is limited in every regime of its length. -/
theorem limitedStringChecks_ok_iff (lb ub : Option Int) (len : Nat) :
    limitedStringChecks false lb ub len = .ok () ↔ InBounds lb ub len ∧ len < 16384 := by
  rw [limitedStringChecks, checks_ok_iff, stringChecks_ok_iff, checkNotFragmented_ok_iff]

/-- A character string is limited in the unconstrained regime only. -/
theorem charStringChecks_ok_iff (lb ub : Option Int) (len : Nat) :
    charStringChecks false lb ub len = .ok () ↔
      InBounds lb ub len ∧ ((∀ u, ub = some u → 65536 ≤ u) → len < 16384) := by
  rw [charStringChecks, checks_ok_iff, stringChecks_ok_iff, checkDeterminant_ok_iff,
    lengthRegime_none_iff]

/-! ### What the encoders write (R180, R184, R188) -/

theorem encString_eq (p : Params) (threshold : Nat) (x : Bool) (lb ub : Option Int) (len : Nat)
    (content w : Bits) :
    encString p threshold x lb ub len content w =
      encLen p lb ub len (w ++ marker x) ++
        (if len > threshold then padBits (encLen p lb ub len (w ++ marker x)).length else []) ++
        content := by
  rw [encString, encMarker_eq]
  split
  · rfl
  · rw [List.append_nil]; rfl

/-- Settles O50: the checks pass, and the command writes the string's layout. -/
theorem encodeBitString : Obligations.EncodeBitString := by
  intro s x lb ub bits hready hlb hb hlt
  dsimp only
  rw [← encString_eq]
  exact encode_succeeds hready hlb (exec_encBitStr ..) ((limitedStringChecks_ok_iff ..).2 ⟨hb, hlt⟩)

/-- Settles O51: the checks pass, and the command writes the string's layout. -/
theorem encodeOctetString : Obligations.EncodeOctetString := by
  intro s x lb ub o hready hlb hb hlt
  dsimp only
  rw [← encString_eq]
  exact encode_succeeds hready hlb (exec_encOctStr ..) ((limitedStringChecks_ok_iff ..).2 ⟨hb, hlt⟩)

/-- Settles O52: the three make the same checks and write the same layout. -/
theorem encodeCharacterStrings : Obligations.EncodeCharacterStrings := by
  intro s x lb ub o hready hlb hb hlim
  have hchecks := (charStringChecks_ok_iff lb ub o.length).2 ⟨hb, hlim⟩
  dsimp only
  rw [← encString_eq]
  refine ⟨?_, ?_, ?_⟩
  · exact encode_succeeds hready hlb (exec_encVisStr ..) hchecks
  · exact encode_succeeds hready hlb (exec_encPrtStr ..) hchecks
  · exact encode_succeeds hready hlb (exec_encUtf8Str ..) hchecks

/-! ### What the decoders read, once the length is known (R181, R185, R189) -/

/-- After a clear marker the length of a string is what `DecLen` reads. -/
theorem decStringLen_clear {s : State} {x : Bool} (h : MarkerClear x s) (lb ub : Option Int) :
    decStringLen s.params x lb ub s.rbuf s.cur =
      (decLen s.params lb ub s.rbuf (s.cur + (marker x).length)).map fun q => (q.1.toNat, q.2) := by
  rw [decStringLen, decMarker_clear h]; rfl

theorem decStringLen_of_ok {s : State} {x : Bool} (h : MarkerClear x s) {lb ub : Option Int}
    {len c : Nat}
    (hlen : decLen s.params lb ub s.rbuf (s.cur + (marker x).length) = .ok ((len : Int), c)) :
    decStringLen s.params x lb ub s.rbuf s.cur = .ok (len, c) := by
  rw [decStringLen_clear h, hlen]; rfl

theorem checkNotFragmented_bind {α : Type} (len : Nat) (r : Except ErrKind α) :
    (checkNotFragmented len >>= fun _ => r) =
      if len < 16384 then r else .error .unimplemented := by
  unfold checkNotFragmented check
  by_cases h : len < 16384
  · simp only [h, decide_true, if_true]; rfl
  · simp only [h, decide_false, if_false]; rfl

section

variable {p : Params} {x : Bool} {lb ub : Option Int} {rbuf : Bits} {cur len c : Nat}

theorem runDecBitStr_of_len (h : decStringLen p x lb ub rbuf cur = .ok (len, c)) :
    runDecBitStr p x lb ub rbuf cur =
      if len < 16384 then
        (decContent bitStrAlignThreshold 1 len rbuf c).map fun q => (.bits q.1, q.2)
      else .error .unimplemented := by
  rw [runDecBitStr, h]
  exact checkNotFragmented_bind ..

theorem runDecCharStr_of_len (h : decStringLen p x lb ub rbuf cur = .ok (len, c)) :
    runDecCharStr p x lb ub rbuf cur =
      (decContent charStrAlignThreshold 8 len rbuf c).map fun q =>
        (.octets (bitsToOctets q.1), q.2) := by
  rw [runDecCharStr, h]; rfl

/-- An octet string below the limit reads as a character string does. -/
theorem runDecOctStr_of_len (h : decStringLen p x lb ub rbuf cur = .ok (len, c)) :
    runDecOctStr p x lb ub rbuf cur =
      if len < 16384 then runDecCharStr p x lb ub rbuf cur else .error .unimplemented := by
  rw [runDecOctStr, h, runDecCharStr_of_len h]
  exact checkNotFragmented_bind ..

end

/-! ### The string decoders (R181, R185, R189, R191, R193, R195) -/

/-- The three character-string decoders return what their one routine reads. -/
theorem decCharStrs_succeed {s : State} {x : Bool} {lb ub : Option Int} {v : Value} {c : Nat}
    (hready : s.Ready .dec) (hlb : lengthBoundOk lb = true)
    (h : runDecCharStr s.params x lb ub s.rbuf s.cur = .ok (v, c)) :
    exec (.decVisStr x lb ub) s = .next (s.afterDecode v c) ∧
    exec (.decPrtStr x lb ub) s = .next (s.afterDecode v c) ∧
    exec (.decUtf8Str x lb ub) s = .next (s.afterDecode v c) :=
  ⟨decode_succeeds hready hlb (exec_decVisStr ..) h,
    decode_succeeds hready hlb (exec_decPrtStr ..) h,
    decode_succeeds hready hlb (exec_decUtf8Str ..) h⟩

/-- The three character-string decoders fail as their one routine does. -/
theorem decCharStrs_fail {s : State} {x : Bool} {lb ub : Option Int} {k : ErrKind}
    (hready : s.Ready .dec) (hcur : s.cur ≤ s.rbuf.length) (hlb : lengthBoundOk lb = true)
    (h : runDecCharStr s.params x lb ub s.rbuf s.cur = .error k) :
    ∀ i ∈ [.decVisStr x lb ub, .decPrtStr x lb ub, .decUtf8Str x lb ub], DecodeFails i k s := by
  simp only [List.forall_mem_cons, List.not_mem_nil, false_imp_iff, implies_true, and_true]
  refine ⟨?_, ?_, ?_⟩
  · exact decode_fails hready hlb hcur (exec_decVisStr ..) h
  · exact decode_fails hready hlb hcur (exec_decPrtStr ..) h
  · exact decode_fails hready hlb hcur (exec_decUtf8Str ..) h

/-- Settles O54: with the length read, the content is read as it stands. -/
theorem decodeStrings : Obligations.DecodeStrings := by
  intro s x lb ub len c hready hlb hclear hdec
  have hlen := decStringLen_of_ok hclear hdec
  refine ⟨fun hlt hfit => ?_, fun o ho hfit => ?_⟩
  · refine decode_succeeds hready hlb (exec_decBitStr ..) ?_
    rw [runDecBitStr_of_len hlen, if_pos hlt, decContent_ok (by rwa [Nat.one_mul]), Nat.one_mul]
    rfl
  · have hrun := runDecCharStr_of_len hlen
    rw [decContent_ok hfit, ← ho] at hrun
    simp only [Except.map, bitsToOctets_octetsToBits] at hrun
    refine ⟨fun hlt => decode_succeeds hready hlb (exec_decOctStr ..) ?_,
      decCharStrs_succeed hready hlb hrun⟩
    rw [runDecOctStr_of_len hlen, if_pos hlt, hrun]

/-! ### The string decoders' errors (R181, R185, R189, R221, R223) -/

/-- A reader that begins with a string's length fails as `DecLen` does after a clear marker. -/
theorem after_string_length_error {α : Type} {s : State} {x : Bool} (hclear : MarkerClear x s)
    {lb ub : Option Int} {k : ErrKind}
    (h : decLen s.params lb ub s.rbuf (s.cur + (marker x).length) = .error k)
    (f : Nat × Nat → Except ErrKind α) :
    (decStringLen s.params x lb ub s.rbuf s.cur >>= f) = .error k := by
  rw [decStringLen_clear hclear, h]; rfl

/-- Settles O55: the reads of a string fail at its length, at the limit or at its content. -/
theorem decodeStringErrors : Obligations.DecodeStringErrors := by
  intro s x lb ub hready hcur hlb hclear
  refine ⟨fun k hk => ?_, fun len c hdec => ?_⟩
  · have hfail {α} := after_string_length_error (α := α) hclear hk
    rw [List.forall_mem_cons, List.forall_mem_cons]
    refine ⟨?_, ?_, ?_⟩
    · exact decode_fails hready hlb hcur (exec_decBitStr ..) (hfail _)
    · exact decode_fails hready hlb hcur (exec_decOctStr ..) (hfail _)
    · exact decCharStrs_fail hready hcur hlb (hfail _)
  have hlen := decStringLen_of_ok hclear hdec
  refine ⟨fun hge => ⟨?_, ?_⟩, fun hlt hshort => ?_, fun hshort => ?_⟩
  · exact decode_fails hready hlb hcur (exec_decBitStr ..)
      ((runDecBitStr_of_len hlen).trans (if_neg hge.not_gt))
  · exact decode_fails hready hlb hcur (exec_decOctStr ..)
      ((runDecOctStr_of_len hlen).trans (if_neg hge.not_gt))
  · refine decode_fails hready hlb hcur (exec_decBitStr ..) ?_
    rw [runDecBitStr_of_len hlen, if_pos hlt, decContent_short (by rwa [Nat.one_mul])]
    rfl
  · have hrun := runDecCharStr_of_len hlen
    rw [decContent_short hshort] at hrun
    refine ⟨fun hlt => ?_, decCharStrs_fail hready hcur hlb hrun⟩
    exact decode_fails hready hlb hcur (exec_decOctStr ..)
      ((runDecOctStr_of_len hlen).trans ((if_pos hlt).trans hrun))

/-! ### Every decoder recovers what its encoder wrote -/

/-- The content that stands after a determinant, aligned above the threshold. -/
theorem decContent_at {threshold width len : Nat} {rbuf d content rest : Bits}
    (hc : content.length = width * len)
    (hr : rbuf = (if len > threshold then alignEnc d else d) ++ content ++ rest) :
    decContent threshold width len rbuf d.length =
      .ok (content, ((if len > threshold then alignEnc d else d) ++ content).length) := by
  have halign : alignContent threshold len rbuf d.length =
      .ok (if len > threshold then alignEnc d else d).length := by
    unfold alignContent
    split
    · next h =>
      rw [if_pos h, List.append_assoc] at hr
      exact alignDec_at hr
    · rfl
  rw [decContent, halign, List.length_append, hc]
  exact readBits_at hr rfl hc.symm

/-- A string's marker and determinant, then its content, are read where they were written. -/
theorem decString_encString (p : Params) {threshold width len : Nat} {x : Bool} {lb ub : Option Int}
    {rbuf w content rest : Bits} (hb : InBounds lb ub len)
    (hlim : (∀ u, ub = some u → 65536 ≤ u) → len < 16384) (hc : content.length = width * len)
    (hr : rbuf = encString p threshold x lb ub len content w ++ rest) :
    ∃ c, decStringLen p x lb ub rbuf w.length = .ok (len, c) ∧
      decContent threshold width len rbuf c =
        .ok (content, (encString p threshold x lb ub len content w).length) := by
  refine ⟨_, ?_, decContent_at hc hr⟩
  obtain ⟨r₁, h₁⟩ : encLen p lb ub len (encMarker x w) <+: rbuf := by
    rw [hr, encString, appendBits, List.append_assoc]
    split
    · exact (alignEnc_extends _).trans (List.prefix_append ..)
    · exact List.prefix_append ..
  obtain ⟨r₀, h₀⟩ := (encLen_extends p lb ub len (encMarker x w)).trans ⟨r₁, h₁⟩
  have hdec := decLen_encLen p hb.1 hb.2 (fun h => hlim ((lengthRegime_none_iff ..).1 h)) h₁.symm
  rw [decStringLen, decMarker_encMarker h₀.symm]
  simp only [bind, Except.bind, hdec, Int.toNat_natCast]

section

variable (p : Params) {x : Bool} {lb ub : Option Int} {rbuf w rest : Bits}

theorem runDecBitStr_encString {bits : Bits}
    (hchecks : limitedStringChecks false lb ub bits.length = .ok ())
    (hr : rbuf = encString p bitStrAlignThreshold x lb ub bits.length bits w ++ rest) :
    runDecBitStr p x lb ub rbuf w.length =
      .ok (.bits bits, (encString p bitStrAlignThreshold x lb ub bits.length bits w).length) := by
  obtain ⟨hb, hlt⟩ := (limitedStringChecks_ok_iff ..).1 hchecks
  obtain ⟨c, hlen, hcontent⟩ :=
    decString_encString p hb (fun _ => hlt) (Nat.one_mul _).symm hr
  rw [runDecBitStr_of_len hlen, if_pos hlt, hcontent]
  rfl

theorem runDecCharStr_encString {o : List Octet}
    (hchecks : charStringChecks false lb ub o.length = .ok ())
    (hr : rbuf = encString p charStrAlignThreshold x lb ub o.length (octetsToBits o) w ++ rest) :
    runDecCharStr p x lb ub rbuf w.length =
      .ok (.octets o,
        (encString p charStrAlignThreshold x lb ub o.length (octetsToBits o) w).length) := by
  obtain ⟨hb, hlim⟩ := (charStringChecks_ok_iff ..).1 hchecks
  obtain ⟨c, hlen, hcontent⟩ := decString_encString p hb hlim (octetsToBits_length o) hr
  rw [runDecCharStr_of_len hlen, hcontent, Except.map, bitsToOctets_octetsToBits]

theorem runDecOctStr_encString {o : List Octet}
    (hchecks : limitedStringChecks false lb ub o.length = .ok ())
    (hr : rbuf = encString p octStrAlignThreshold x lb ub o.length (octetsToBits o) w ++ rest) :
    runDecOctStr p x lb ub rbuf w.length =
      .ok (.octets o,
        (encString p octStrAlignThreshold x lb ub o.length (octetsToBits o) w).length) := by
  obtain ⟨hb, hlt⟩ := (limitedStringChecks_ok_iff ..).1 hchecks
  obtain ⟨c, hlen, -⟩ := decString_encString p hb (fun _ => hlt) (octetsToBits_length o) hr
  rw [runDecOctStr_of_len hlen, if_pos hlt]
  exact runDecCharStr_encString p ((charStringChecks_ok_iff ..).2 ⟨hb, fun _ => hlt⟩) hr

end

/-- A decode command recovers what an encode command wrote, if its reads do and it takes the same
operands. -/
theorem decode_recovers {i j : Instr} {s t : State} {checks : Except ErrKind Unit}
    {write : Bits → Bits} {run : Bits → Nat → Except ErrKind (Value × Nat)} {v : Value}
    {w rest : Bits} (hs : s.Ready .enc) (ht : t.Ready .dec) (hm : requiredMode i = some .enc)
    (hlegal : j.wellFormed = i.wellFormed)
    (hi : exec i s = encodeCommand i.wellFormed checks write s)
    (hj : exec j t = decodeCommand j.wellFormed (.ok ()) run t)
    (hr : t.rbuf = w ++ rest) (hcur : t.cur = s.wbuf.length)
    (hread : checks = .ok () → t.rbuf = write s.wbuf ++ rest →
      run t.rbuf s.wbuf.length = .ok (v, (write s.wbuf).length))
    (henc : exec i s = .next (s.afterEncode w)) :
    exec j t = .next (t.afterDecode v w.length) := by
  have hw := wellFormed_of_afterEncode hm hs henc
  obtain ⟨hchecks, rfl⟩ := wrote_of_afterEncode hs hw hi henc
  exact decode_succeeds ht (hlegal.trans hw) hj (by rw [hcur]; exact hread hchecks hr)

/-- Settles O57: each encoder's success gives its checks and its bits, which its decoder's reads
give back. -/
theorem stringRoundTrip : Obligations.StringRoundTrip := by
  intro s t x lb ub w rest hs ht hp hr hcur
  refine ⟨fun bits => ?_, fun o => ⟨?_, ?_, ?_, ?_⟩⟩
  · exact decode_recovers hs ht rfl rfl (exec_encBitStr ..) (exec_decBitStr ..) hr hcur
      (hp ▸ runDecBitStr_encString _)
  · exact decode_recovers hs ht rfl rfl (exec_encOctStr ..) (exec_decOctStr ..) hr hcur
      (hp ▸ runDecOctStr_encString _)
  · exact decode_recovers hs ht rfl rfl (exec_encVisStr ..) (exec_decVisStr ..) hr hcur
      (hp ▸ runDecCharStr_encString _)
  · exact decode_recovers hs ht rfl rfl (exec_encPrtStr ..) (exec_decPrtStr ..) hr hcur
      (hp ▸ runDecCharStr_encString _)
  · exact decode_recovers hs ht rfl rfl (exec_encUtf8Str ..) (exec_decUtf8Str ..) hr hcur
      (hp ▸ runDecCharStr_encString _)

end Sys2Proof.Proofs

/-! PROOF. The statement about the sequence header of spec/45_choice_sequence.md: what ENC_SEQHDR
writes and what DEC_SEQHDR returns (R212, R213). -/

namespace Sys2Proof.Proofs

open Sys2Proof.Machine Sys2Proof.Laws

/-- DEC_SEQHDR's reads after a clear marker, the bitmap all in the buffer (R213). -/
theorem runDecSeqHdr_clear {s : State} {x : Bool} {n : Nat} (hclear : MarkerClear x s)
    (hn : s.cur + (marker x).length + n ≤ s.rbuf.length) :
    runDecSeqHdr x n s.rbuf s.cur =
      .ok (.bits ((s.rbuf.drop (s.cur + (marker x).length)).take n),
        s.cur + (marker x).length + n) := by
  rw [runDecSeqHdr, decMarker_clear hclear]
  exact readValue_le hn

/-- Settles O58: with E = 0 the one check passes and the bitmap follows the marker; after a clear
marker the bitmap is read as it stands. -/
theorem sequenceHeader : Obligations.SequenceHeader := by
  refine ⟨fun s x bits hready => ?_, fun s x n hready hclear hn => ?_⟩
  · rw [← encMarker_eq]
    exact encode_succeeds hready rfl (exec_encSeqHdr ..) rfl
  · exact decode_succeeds hready rfl (exec_decSeqHdr ..) (runDecSeqHdr_clear hclear hn)

end Sys2Proof.Proofs

/-! PROOF. The statements about spec/60_exceptions.md: a failed tree gives no output (R224, R226), which
error an encode command reports (R225), and the state after an error of a decode command (R220,
R227). -/

namespace Sys2Proof.Proofs

open Sys2Proof.Machine Sys2Proof.Laws

/-! ### Steps and runs after an error (R224, R226) -/

/-- `n` refusals lead from `s` to `t`, and the registers and buffers that the Host could see an output
in are as they were (R226). -/
structure OnlyRefused (n : Nat) (s t : State) : Prop where
  err : t.err = s.err
  mode : t.mode = s.mode
  wbuf : t.wbuf = s.wbuf
  rbuf : t.rbuf = s.rbuf
  cur : t.cur = s.cur
  outcomes : ∃ os : List CmdOutcome, t.outcomes = s.outcomes ++ os ∧ os.length = n ∧
    ∀ o ∈ os, o.isRefusal = true

theorem OnlyRefused.zero (s : State) : OnlyRefused 0 s s :=
  ⟨rfl, rfl, rfl, rfl, rfl, [], (List.append_nil _).symm, rfl, by simp⟩

/-- A refused command, then `n` more refusals. -/
theorem OnlyRefused.succ {n : Nat} {s t : State} {rest : List Command} {r : Reason}
    (h : OnlyRefused n ((taken s rest).refuse r) t) : OnlyRefused (n + 1) s t := by
  obtain ⟨herr, hmode, hwbuf, hrbuf, hcur, os, hos, hlen, hall⟩ := h
  refine ⟨herr, hmode, hwbuf, hrbuf, hcur, .refused r :: os, ?_, congrArg (· + 1) hlen, ?_⟩
  · rw [hos, refuse_outcomes, List.append_assoc]; rfl
  · exact List.forall_mem_cons.2 ⟨rfl, hall⟩

/-- While an error stands, a step that takes no NEW_ENC, NEW_DEC or RELEASE refuses what it takes. -/
theorem step_refuses_afterError {s u : State} (he : s.err ≠ none)
    (hreq : ∀ c ∈ s.pending.head?, ∀ i, decode c = .ok i → requiredMode i ≠ none)
    (h : step s = .next u) : ∃ r, u = (taken s s.pending.tail).refuse r := by
  obtain ⟨c, rest, hp, ⟨g, -, rfl⟩ | ⟨i, hd, hexec⟩⟩ := step_cases h
  · exact ⟨.illegalCommand, by rw [hp]; rfl⟩
  · obtain ⟨m, hm⟩ := Option.ne_none_iff_exists'.1 (hreq c (by simp [hp]) i hd)
    rw [exec_refused hm (admission_afterError (s := taken s rest) he ..)] at hexec
    cases hexec
    exact ⟨.afterError, by rw [hp]; rfl⟩

/-- Settles O16, by induction on the number of steps: each is a refusal, which keeps the error. -/
theorem failedTreeNeverOutputs : Obligations.FailedTreeNeverOutputs := by
  intro n s t he hreq h
  suffices hsame : OnlyRefused n s t by
    obtain ⟨herr, hmode, hwbuf, hrbuf, hcur, hout⟩ := hsame
    exact ⟨herr, hmode, hwbuf, hrbuf, hcur, hout⟩
  induction n generalizing s with
  | zero => cases h; exact .zero _
  | succ n ih =>
    obtain ⟨u, hstep, hrun⟩ := run_cases h
    have hhead : ∀ c ∈ s.pending.head?, ∀ i, decode c = .ok i → requiredMode i ≠ none := by
      intro c hc
      obtain ⟨rest, hp⟩ := List.head?_eq_some_iff.1 hc
      exact hreq c (by simp [hp])
    have htail : ∀ c ∈ s.pending.tail.take n, c ∈ s.pending.take (n + 1) := by
      intro c hc
      cases hp : s.pending with
      | nil => simp [hp] at hc
      | cons d rest => rw [hp] at hc; exact List.mem_cons_of_mem _ hc
    obtain ⟨r, rfl⟩ := step_refuses_afterError he hhead hstep
    exact .succ (ih _ he (fun c hc => hreq c (htail c hc)) hrun)

/-! ### Which error an encode command reports (R221, R222, R225) -/

/-- The result of the checks of a command that must report the fault `f`, if any. -/
def faultResult : Option ErrKind → Except ErrKind Unit
  | none => .ok ()
  | some k => .error k

@[simp] theorem faultResult_ite (P : Prop) [Decidable P] (k : ErrKind) (f : Option ErrKind) :
    faultResult (if P then some k else f) = if P then .error k else faultResult f := by
  split <;> rfl

/-- The fault of a command with flag E or N and bounds, when `last` is due within the bounds: the order
all encoders share (R225). -/
def flaggedFault (flag : Bool) (lb ub : Option Int) (v : Int) (last : Option ErrKind) :
    Option ErrKind :=
  if flag then some .unimplemented
  else if ¬ InBounds lb ub v then some .boundsViolation
  else last

/-- The flag, the bounds and then the check `last`, whose fault matters only within the bounds. -/
theorem checksInOrder_eq {flag : Bool} {lb ub : Option Int} {v : Int} {last : Except ErrKind Unit}
    {f : Option ErrKind} (h : InBounds lb ub v → last = faultResult f) :
    (do check (!flag) .unimplemented; checkLower lb v; checkUpper ub v; last) =
      faultResult (flaggedFault flag lb ub v f) := by
  rw [flaggedFault, faultResult_ite, faultResult_ite, ite_not, checkBounds_eq]
  cases flag with
  | true => rfl
  | false =>
    change (if InBounds lb ub v then last else _) = if InBounds lb ub v then faultResult f else _
    split
    · next hb => exact h hb
    · rfl

/-- The 16384 limit on a count gives the fault that is due on either side of it (R221). -/
theorem checkNotFragmented_eq {n : Nat} {f : Option ErrKind} (hok : n < 16384 → f = none)
    (hlim : 16384 ≤ n → f = some .unimplemented) : checkNotFragmented n = faultResult f := by
  by_cases h : n < 16384
  · rw [hok h, (checkNotFragmented_ok_iff n ()).2 h]; rfl
  · rw [hlim (by omega), checkNotFragmented, decide_eq_false h]; rfl

theorem checkUnits_eq (n : Nat) :
    checkNotFragmented n = faultResult (if 16384 ≤ n then some .unimplemented else none) :=
  checkNotFragmented_eq (fun h => if_neg (by omega)) fun h => if_pos h

/-- The 16384 limit on a length, in the unconstrained regime only (R156, R188). -/
theorem checkDeterminant_eq (lb ub : Option Int) (n : Nat) :
    checkDeterminant lb ub n =
      faultResult (if (∀ u, ub = some u → 65536 ≤ u) ∧ 16384 ≤ n then some .unimplemented
        else none) := by
  unfold checkDeterminant
  cases hreg : lengthRegime lb ub with
  | none =>
    have hub := (lengthRegime_none_iff lb ub).1 hreg
    exact checkNotFragmented_eq (fun h => if_neg fun hlim => hlim.2.not_gt h) fun h => if_pos ⟨hub, h⟩
  | some q =>
    rw [if_neg fun hlim => by simp [(lengthRegime_none_iff lb ub).2 hlim.1] at hreg]
    rfl

/-- The limit on an integer's octets, by which of its bounds are present (R126). -/
theorem encIntChecks_eq (e x : Bool) (lb ub : Option Int) (v : Int) :
    encIntChecks e lb ub v = faultResult (encodeFault (.encInt e x lb ub v)) := by
  cases lb with
  | none =>
    refine checksInOrder_eq fun _ => checkNotFragmented_eq (fun h => if_pos ?_) fun h => if_neg ?_
    · rw [← twosOctets_le_iff_fits (by decide)]; omega
    · rw [← twosOctets_le_iff_fits (by decide)]; omega
  | some l =>
    cases ub with
    | none =>
      refine checksInOrder_eq fun hb => ?_
      have hv : 0 ≤ v - l := Int.sub_nonneg.2 (hb.1 l rfl)
      refine checkNotFragmented_eq (fun h => if_pos ?_) fun h => if_neg ?_
      · rw [← nonnegOctets_le_iff_fits (by decide) hv]; omega
      · rw [← nonnegOctets_le_iff_fits (by decide) hv]; omega
    | some u => exact checksInOrder_eq fun _ => rfl

theorem encLenChecks_eq (n : Bool) (lb ub : Option Int) (v : Int) :
    encLenChecks n lb ub v = faultResult (encodeFault (.encLen n lb ub v)) := by
  have hv : 16384 ≤ v.toNat ↔ 16384 ≤ v := by omega
  refine checksInOrder_eq fun _ => ?_
  simp only [checkDeterminant_eq, hv]

/-- No check follows the bounds of an ordinal (R172, R210). -/
theorem ordinalChecks_eq (e x : Bool) (lb ub v : Int) :
    ordinalChecks e lb ub v = faultResult (encodeFault (.encEnum e x lb ub v)) := by
  have hb : InBounds (some lb) (some ub) v ↔ lb ≤ v ∧ v ≤ ub := by simp [InBounds]
  calc ordinalChecks e lb ub v
      = (do check (!e) .unimplemented; checkLower (some lb) v; checkUpper (some ub) v; pure ()) := by
        simp [ordinalChecks, checkNotExtended]
    _ = faultResult (flaggedFault e (some lb) (some ub) v none) := checksInOrder_eq fun _ => rfl
    _ = faultResult (encodeFault (.encEnum e x lb ub v)) := by
        simp only [flaggedFault, encodeFault, hb]

/-- ENC_SEQHDR checks its flag only (R212). -/
theorem checkNotExtended_eq (e : Bool) :
    checkNotExtended e = faultResult (if e then some .unimplemented else none) := by
  cases e <;> rfl

/-- A string's flag and bounds, and then its limit (R180, R184, R188). -/
theorem stringChecks_bind_eq (e : Bool) (lb ub : Option Int) (len : Nat)
    {last : Except ErrKind Unit} {f : Option ErrKind} (h : last = faultResult f) :
    (do stringChecks e lb ub len; last) = faultResult (flaggedFault e lb ub len f) := by
  rw [← checksInOrder_eq fun _ => h]
  simp only [stringChecks, checkNotExtended, bind_assoc]

theorem limitedStringChecks_eq (e : Bool) (lb ub : Option Int) (len : Nat) :
    limitedStringChecks e lb ub len = faultResult (flaggedFault e lb ub len
      (if 16384 ≤ len then some .unimplemented else none)) :=
  stringChecks_bind_eq e lb ub len (checkUnits_eq len)

theorem charStringChecks_eq (e x : Bool) (lb ub : Option Int) (o : List Octet) :
    charStringChecks e lb ub o.length = faultResult (encodeFault (.encVisStr e x lb ub o)) :=
  stringChecks_bind_eq e lb ub o.length (checkDeterminant_eq lb ub o.length)

/-- An encode command but FINISH is its fault's check, and then a write (R225, R227). -/
theorem exec_eq_encodeCommand_fault {i : Instr} (s : State) (hm : requiredMode i = some .enc)
    (hi : i ≠ .finish) :
    ∃ write, exec i s = encodeCommand i.wellFormed (faultResult (encodeFault i)) write s := by
  cases i with
  | finish => exact absurd rfl hi
  | appendBits bits => exact ⟨_, exec_appendBits ..⟩
  | alignE => exact ⟨_, exec_alignE ..⟩
  | encBool b => exact ⟨_, exec_encBool ..⟩
  | encInt e x lb ub v => exact ⟨_, encIntChecks_eq e x lb ub v ▸ exec_encInt ..⟩
  | encEnum e x lb ub v => exact ⟨_, ordinalChecks_eq e x lb ub v ▸ exec_encEnum ..⟩
  | encChoice e x lb ub v => exact ⟨_, ordinalChecks_eq e x lb ub v ▸ exec_encChoice ..⟩
  | encLen n lb ub v => exact ⟨_, encLenChecks_eq n lb ub v ▸ exec_encLen ..⟩
  | encBitStr e x lb ub bits =>
    exact ⟨_, limitedStringChecks_eq e lb ub bits.length ▸ exec_encBitStr ..⟩
  | encOctStr e x lb ub o =>
    exact ⟨_, limitedStringChecks_eq e lb ub o.length ▸ exec_encOctStr ..⟩
  | encVisStr e x lb ub o =>
    exact ⟨_, charStringChecks_eq e x lb ub o ▸ exec_encVisStr ..⟩
  | encPrtStr e x lb ub o =>
    exact ⟨_, charStringChecks_eq e x lb ub o ▸ exec_encPrtStr ..⟩
  | encUtf8Str e x lb ub o =>
    exact ⟨_, charStringChecks_eq e x lb ub o ▸ exec_encUtf8Str ..⟩
  | encSeqHdr e x bits => exact ⟨_, checkNotExtended_eq e ▸ exec_encSeqHdr ..⟩
  | _ => cases hm

/-- Settles O21: the checks report the fault; with none due the command writes, and what it writes
extends WBUF by O24. -/
theorem encodeFaultPriority : Obligations.EncodeFaultPriority := by
  intro i s hm hi hready hw
  obtain ⟨write, hexec⟩ := exec_eq_encodeCommand_fault s hm hi
  refine ⟨fun k hk => encode_fails hready hw hexec (by rw [hk]; rfl), fun hnone => ?_⟩
  have hok := encode_succeeds hready hw hexec (by rw [hnone]; rfl)
  obtain ⟨new, hnew⟩ := (encodeBufferOnlyExtended i s _ (by simp [hm]) hi hok).1
  exact ⟨new, hnew ▸ hok⟩

/-! ### The state after an error of a decode command (R220, R227) -/

/-- Settles O22: of what a decode command can do only a raised error returns `Err(k)`. -/
theorem decodeErrorState : Obligations.DecodeErrorState := by
  intro i s t k hm hcur h ho
  cases modedEffect_of_exec hm h with
  | refused _ r => cases added_outcome_inj ho
  | decoded x c hc hx => cases added_outcome_inj ho
  | decodeError k' c hc => cases added_outcome_inj ho; exact ⟨c, _, hc.1, hc.2 hcur, h⟩

end Sys2Proof.Proofs

/-! PROOF. The statements about spec/70_reset_and_hazards.md: when the machine stops, what makes a
run from reset successful (R242), and that a value tree one unit encodes another decodes (R241,
R243, R248). -/

namespace Sys2Proof.Proofs

open Sys2Proof.Machine Sys2Proof.Laws

/-! ### The end of a run (R242) -/

/-- Settles O9, by the laws of a step without and with a pending command. -/
theorem stepStopsOnlyAtEndOfRun : Obligations.StepStopsOnlyAtEndOfRun :=
  fun _ => ⟨step_nil, step_next⟩

/-! ### Successful runs (R28, R242) -/

/-- A run keeps the invariant, since each of its steps does. -/
theorem inv_of_run {n : Nat} {s t : State} (hs : s.Inv) (h : core.run n s = .next t) : t.Inv := by
  induction n generalizing s with
  | zero => cases h; exact hs
  | succ n ih =>
    obtain ⟨u, hstep, hrun⟩ := run_cases h
    exact ih (stepKeepsInvariant s u hs hstep) hrun

/-- Outcomes hold no error and no refusal exactly when all of them are `Ok`. -/
theorem no_error_no_refusal_iff (i : Nat) (os : List CmdOutcome) :
    errorsFrom i os = [] ∧ os.any CmdOutcome.isRefusal = false ↔ ∀ o ∈ os, ∃ x, o = .ok x := by
  induction os generalizing i with
  | nil => simp [errorsFrom]
  | cons o os ih =>
    cases o with
    | ok x => simpa [errorsFrom, CmdOutcome.isRefusal] using ih (i + 1)
    | err k => simp [errorsFrom]
    | refused r => simp [CmdOutcome.isRefusal]

/-- Settles O17: the invariant makes FAULT_LOG the errors of the outcomes and REFUSED the mark of a
refusal among them. -/
theorem successfulRunIffAllOk : Obligations.SuccessfulRunIffAllOk := by
  intro p cs n t h
  have hrecords := (inv_of_run (resetMeetsInvariant p cs) h).records
  rw [State.successful, hrecords.fault_log, hrecords.refused_mark]
  exact no_error_no_refusal_iff 1 t.outcomes

/-- The records of a run are never cleared, so a state that leads to a successful one was successful
itself (R28). -/
theorem successful_of_run {n : Nat} {s t : State} (h : core.run n s = .next t)
    (ht : t.successful) : s.successful := by
  induction n generalizing s with
  | zero => cases h; exact ht
  | succ n ih =>
    obtain ⟨u, hstep, hrun⟩ := run_cases h
    obtain ⟨hlog, hrefused⟩ := ih hrun
    obtain ⟨o, hr⟩ := recorded_of_step hstep
    exact ⟨(List.append_eq_nil_iff.1 (hr.faultLog.symm.trans hlog)).1,
      (Bool.or_eq_false_iff.1 (hr.refused.symm.trans hrefused)).1⟩

/-! ### A mirror command recovers what its encode command wrote (R128, R243) -/

theorem readValue_at {rbuf w bits rest : Bits} (hr : rbuf = w ++ bits ++ rest) :
    readValue bits.length rbuf w.length = .ok (.bits bits, (w ++ bits).length) := by
  rw [readValue, readBits_at hr rfl rfl, List.length_append]; rfl

theorem readBool_at {rbuf w rest : Bits} {b : Bool} (hr : rbuf = w ++ [b] ++ rest) :
    readBool rbuf w.length = .ok (.bool b, (w ++ [b]).length) :=
  (readBool_of_getElem? (b := b) (by simp [hr])).trans (by simp)

theorem runAlignD_at {rbuf w rest : Bits} (hr : rbuf = alignEnc w ++ rest) :
    runAlignD rbuf w.length = .ok (.unit, (alignEnc w).length) := by
  rw [runAlignD, alignDec_at hr]; rfl

/-- The reads of DEC_ENUM and DEC_CHOICE recover the ordinal written, marker included. -/
theorem runDecOrdinal_encOrdinal (p : Params) {x : Bool} {lb ub v : Int} {rbuf w rest : Bits}
    (hchecks : ordinalChecks false lb ub v = .ok ())
    (hr : rbuf = encOrdinal p x lb ub v w ++ rest) :
    runDecOrdinal p x lb ub rbuf w.length = .ok (.int v, (encOrdinal p x lb ub v w).length) := by
  obtain ⟨hl, hu⟩ : lb ≤ v ∧ v ≤ ub := by
    simpa [ordinalChecks, checkNotExtended, checks_ok_iff, checkLower_ok_iff, checkUpper_ok_iff]
      using hchecks
  obtain ⟨new, hnew⟩ := encCwn_extends p lb ub v (encMarker x w)
  rw [runDecOrdinal, decMarker_encMarker (rest := new ++ rest)
    (by rw [hr, encOrdinal, ← hnew, List.append_assoc])]
  simp only [bind, Except.bind]
  rw [decCwnValue_encCwn p hl hu hr]
  rfl

/-- DEC_SEQHDR's reads recover the bitmap written after the marker. -/
theorem runDecSeqHdr_at {x : Bool} {rbuf w bits rest : Bits}
    (hr : rbuf = encMarker x w ++ bits ++ rest) :
    runDecSeqHdr x bits.length rbuf w.length =
      .ok (.bits bits, (encMarker x w ++ bits).length) := by
  rw [runDecSeqHdr, decMarker_encMarker (rest := bits ++ rest) (by rw [hr, List.append_assoc])]
  exact readValue_at hr

/-- What has a mirror command is an encode command, and not FINISH. -/
theorem encodes_of_mirror {i : Instr} {q : Instr × Value} (h : mirror i = some q) :
    requiredMode i = some .enc ∧ i ≠ .finish := by
  unfold mirror at h
  split at h
  case h_14 => cases h
  all_goals exact ⟨rfl, nofun⟩

/-- A mirror command at the place where its encode command wrote returns the value encoded and moves
the cursor past it. -/
theorem mirror_recovers {i j : Instr} {v : Value} {s t : State} {w rest : Bits}
    (h : mirror i = some (j, v)) (hs : s.Ready .enc) (ht : t.Ready .dec) (hp : t.params = s.params)
    (hr : t.rbuf = w ++ rest) (hcur : t.cur = s.wbuf.length) :
    exec i s = .next (s.afterEncode w) → exec j t = .next (t.afterDecode v w.length) := by
  have hstrings := fun x lb ub => stringRoundTrip s t x lb ub w rest hs ht hp hr hcur
  unfold mirror at h
  split at h
  case h_14 => cases h
  all_goals cases h
  case h_1 bits =>
    exact decode_recovers hs ht rfl rfl (exec_appendBits ..) (exec_readBits ..) hr hcur
      (fun _ => readValue_at)
  case h_2 =>
    exact decode_recovers hs ht rfl rfl (exec_alignE ..) (exec_alignD ..) hr hcur
      (fun _ => runAlignD_at)
  case h_3 b =>
    exact decode_recovers hs ht rfl rfl (exec_encBool ..) (exec_decBool ..) hr hcur
      (fun _ => readBool_at)
  case h_4 x lb ub v =>
    exact fun henc => integerRoundTrip s t x lb ub v w rest hs ht hp henc hr hcur
  case h_5 x lb ub v =>
    exact decode_recovers hs ht rfl rfl (exec_encEnum ..) (exec_decEnum ..) hr hcur
      (hp ▸ runDecOrdinal_encOrdinal _)
  case h_6 lb ub v =>
    exact fun henc => lengthRoundTrip s t lb ub v w rest hs ht hp henc hr hcur
  case h_7 x lb ub bits => exact (hstrings x lb ub).1 bits
  case h_8 x lb ub o => exact ((hstrings x lb ub).2 o).1
  case h_9 x lb ub o => exact ((hstrings x lb ub).2 o).2.1
  case h_10 x lb ub o => exact ((hstrings x lb ub).2 o).2.2.1
  case h_11 x lb ub o => exact ((hstrings x lb ub).2 o).2.2.2
  case h_12 x lb ub v =>
    exact decode_recovers hs ht rfl rfl (exec_encChoice ..) (exec_decChoice ..) hr hcur
      (hp ▸ runDecOrdinal_encOrdinal _)
  case h_13 x bits =>
    exact decode_recovers hs ht rfl rfl (exec_encSeqHdr ..) (exec_decSeqHdr ..) hr hcur
      (fun _ => runDecSeqHdr_at)

/-! ### The encoding unit's run (R241, R242) -/

/-- A step on the encoding of a command executes the command. -/
theorem step_encode {s : State} {i : Instr} {rest : List Command}
    (h : s.pending = encode i :: rest) : step s = exec i (taken s rest) :=
  step_command h (decodeEncodeRoundTrip i)

/-- An encode command whose unit is still successful after it has returned `Ok(Unit)` and extended
WBUF. -/
theorem afterEncode_of_successful {i : Instr} {s t : State} (hm : requiredMode i = some .enc)
    (hi : i ≠ .finish) (h : exec i s = .next t) (ht : t.successful) :
    ∃ w, s.wbuf <+: w ∧ t = s.afterEncode w := by
  cases modedEffect_of_exec hm h with
  | refused _ r => exact absurd ht.2 (by simp)
  | finished hfinish => exact absurd hfinish hi
  | encodeError k => exact absurd ht.1 (by simp)
  | encoded w hw hx => exact ⟨w, hw, rfl⟩

/-- The unit `s` is encoding: the commands `es` and FINISH are still to come, and their run ends
successfully with the octets `out` on RES. -/
structure Encoding (es : List Instr) (out : List Octet) (s : State) : Prop where
  ready : s.Ready .enc
  pending : s.pending = (es ++ [Instr.finish]).map encode
  run : ∃ f, core.run (es.length + 1) s = .next f ∧ f.successful ∧ f.res = some (.octets out)

/-- NEW_ENC after reset starts the encoding with WBUF empty (R110). -/
theorem encoding_of_newEnc {p : Params} {es : List Instr} {out : List Octet} {f : State}
    (hrun : core.run (es.length + 2) { State.resetWith p with
      pending := ([.newEnc] ++ es ++ [.finish] : List Instr).map encode } = .next f)
    (hf : f.successful) (hres : f.res = some (.octets out)) :
    ∃ s, Encoding es out s ∧ s.params = p ∧ s.wbuf = [] := by
  obtain ⟨s, hstep, hrest⟩ := run_cases hrun
  rw [step_encode rfl] at hstep
  cases hstep
  exact ⟨_, ⟨⟨rfl, rfl⟩, rfl, f, hrest, hf, hres⟩, rfl, rfl⟩

/-- With only FINISH to come, the octets are WBUF's (R112). -/
theorem Encoding.out_eq {out : List Octet} {s : State} (h : Encoding [] out s) :
    out = finishOctets s.wbuf := by
  obtain ⟨hready, hpending, f, hrun, -, hres⟩ := h
  obtain ⟨u, hstep, hlast⟩ := run_cases hrun
  rw [step_encode (rest := []) hpending, show exec .finish _ = _ from
    execFinish_ok (admission_of_ready (i := .finish) (s := taken s []) hready rfl)] at hstep
  cases hstep
  cases hlast
  cases hres
  rfl

/-- The next encode command returns `Ok(Unit)`, and the unit goes on encoding the others. -/
theorem Encoding.next {e : Instr} {es : List Instr} {out : List Octet} {s : State}
    (hm : requiredMode e = some .enc) (he : e ≠ .finish) (h : Encoding (e :: es) out s) :
    ∃ (s' : State) (w : Bits), s'.Ready .enc ∧ s'.params = s.params ∧ s'.wbuf = s.wbuf ∧
      s.wbuf <+: w ∧ exec e s' = .next (s'.afterEncode w) ∧ Encoding es out (s'.afterEncode w) := by
  obtain ⟨hready, hpending, f, hrun, hf, hres⟩ := h
  obtain ⟨u, hstep, hrest⟩ := run_cases hrun
  rw [step_encode hpending] at hstep
  obtain ⟨w, hw, rfl⟩ := afterEncode_of_successful hm he hstep (successful_of_run hrest hf)
  exact ⟨taken s _, w, hready, rfl, rfl, hw, hstep, hready, rfl, f, hrest, hf, hres⟩

/-! ### The decoding unit's run (R241, R242) -/

/-- The unit `t` is decoding: it holds the octets `out`, its cursor stands at the end of the bits
`w`, and the decode commands of `ds` are still to come. -/
structure Decoding (ds : List (Instr × Value)) (out : List Octet) (w : Bits) (t : State) :
    Prop where
  ready : t.Ready .dec
  pending : t.pending = (ds.map Prod.fst).map encode
  rbuf : t.rbuf = octetsToBits out
  cur : t.cur = w.length

/-- NEW_DEC of `out` succeeds after reset and starts the decoding (R111). -/
theorem decoding_of_newDec (p : Params) (ds : List (Instr × Value)) (out : List Octet) :
    ∃ t, step { State.resetWith p with
        pending := ([.newDec out] ++ ds.map Prod.fst : List Instr).map encode } = .next t ∧
      Decoding ds out [] t ∧ t.params = p ∧ t.successful ∧ t.outcomes = [.ok .unit] := by
  refine ⟨_, step_encode (i := .newDec out) rfl, ?_⟩
  exact ⟨⟨⟨rfl, rfl⟩, rfl, rfl, rfl⟩, rfl, ⟨rfl, rfl⟩, rfl⟩

/-- The commands of `ds`, run from `t`, all return `Ok`, each with its value. -/
def ReturnsValues (ds : List (Instr × Value)) (t : State) : Prop :=
  ∃ f, core.run ds.length t = .next f ∧ f.faultLog = t.faultLog ∧ f.refused = t.refused ∧
    f.outcomes = t.outcomes ++ ds.map fun d => .ok d.2

theorem ReturnsValues.nil (t : State) : ReturnsValues [] t :=
  ⟨t, rfl, rfl, rfl, (List.append_nil _).symm⟩

theorem ReturnsValues.cons {j : Instr} {v : Value} {ds : List (Instr × Value)} {t : State}
    {rest : List Command} {c : Nat} (hstep : step t = .next ((taken t rest).afterDecode v c))
    (h : ReturnsValues ds ((taken t rest).afterDecode v c)) : ReturnsValues ((j, v) :: ds) t := by
  obtain ⟨f, hrun, hlog, hrefused, houtcomes⟩ := h
  exact ⟨f, (run_step hstep).trans hrun, hlog, hrefused, houtcomes.trans (List.append_assoc ..)⟩

/-- While one unit encodes, its WBUF begins the octets to come, and a unit that has decoded as much
returns the values still to be encoded. -/
theorem Encoding.decodes {es : List Instr} {ds : List (Instr × Value)} {out : List Octet}
    {s : State} (hds : List.Forall₂ (fun e d => mirror e = some d) es ds) (h : Encoding es out s) :
    s.wbuf <+: octetsToBits out ∧
      ∀ t : State, t.params = s.params → Decoding ds out s.wbuf t → ReturnsValues ds t := by
  induction hds generalizing s with
  | nil =>
    refine ⟨?_, fun t _ _ => .nil t⟩
    rw [h.out_eq, octetsToBits_finishOctets]
    exact List.prefix_append ..
  | @cons e d es ds hmirror hds ih =>
    obtain ⟨hm, he⟩ := encodes_of_mirror hmirror
    obtain ⟨s', w, hready, hparams, hwbuf, hw, hexec, henc⟩ := h.next hm he
    obtain ⟨hprefix, hdecodes⟩ := ih henc
    refine ⟨hw.trans hprefix, fun t hp hdec => ?_⟩
    obtain ⟨rest, hrest⟩ := hprefix
    have hstep : step t = .next ((taken t _).afterDecode d.2 w.length) :=
      (step_encode hdec.pending).trans <| mirror_recovers hmirror hready hdec.ready
        (hp.trans hparams.symm) (hdec.rbuf.trans hrest.symm)
        (hdec.cur.trans (congrArg List.length hwbuf.symm)) hexec
    exact .cons hstep (hdecodes _ (hp.trans hparams.symm) ⟨hdec.ready, rfl, hdec.rbuf, rfl⟩)

/-- `mapM` in `Option` succeeds elementwise. -/
theorem forall₂_of_mapM_eq_some {α β : Type} {f : α → Option β} {xs : List α} {ys : List β}
    (h : xs.mapM f = some ys) : List.Forall₂ (fun x y => f x = some y) xs ys := by
  induction xs generalizing ys with
  | nil => cases h; exact .nil
  | cons x xs ih =>
    rw [List.mapM_cons] at h
    obtain ⟨y, hy, h⟩ := Option.bind_eq_some_iff.1 h
    obtain ⟨zs, hzs, h⟩ := Option.bind_eq_some_iff.1 h
    cases h
    exact .cons hy (ih hzs)

/-- Settles O18: after NEW_ENC the one unit is encoding with WBUF empty, after NEW_DEC the other is
decoding at the start of the octets, and `Encoding.decodes` takes the two on in step. -/
theorem valueTreeRoundTrip : Obligations.ValueTreeRoundTrip := by
  intro p es ds f out hds hrun hf hres
  obtain ⟨s, henc, hs, hwbuf⟩ := encoding_of_newEnc hrun hf hres
  obtain ⟨t, hstep, hdec, ht, ⟨hlog, hrefused⟩, houtcomes⟩ := decoding_of_newDec p ds out
  obtain ⟨-, hdecodes⟩ := henc.decodes (forall₂_of_mapM_eq_some hds)
  obtain ⟨g, hg, hglog, hgrefused, hgoutcomes⟩ := hdecodes t (ht.trans hs.symm) (hwbuf ▸ hdec)
  exact ⟨g, (run_step hstep).trans hg, ⟨hglog.trans hlog, hgrefused.trans hrefused⟩,
    by rw [hgoutcomes, houtcomes]; rfl⟩

end Sys2Proof.Proofs
